-- ==== Sys2Proof/Word.lean ====
section
/-!
DEFINITION. The fixed-width words of the machine (00_scope.md R6, R9): a u32, a byte, the 64-bit block as two words and the
128-bit key as four words. `+`, `-`, `<<<`, `>>>` and `^^^` on `BitVec 32` are R9's operations: modulo 2^32, logical shifts.
-/

namespace Sys2Proof

/-- The u32 of 00_scope.md R9. -/
abbrev Word := BitVec 32

abbrev Byte := BitVec 8

/-- CipherBlock of the glossary (00_scope.md section 5): "exactly two unsigned 32-bit words"; `y = block[0]`, `z = block[1]`. -/
structure Block where
  y : Word
  z : Word
deriving DecidableEq, Repr

/-- The 128-bit key, `key[0..3]` (00_scope.md R6); any four words (90_conflicts.md C3). -/
structure Key where
  key0 : Word
  key1 : Word
  key2 : Word
  key3 : Word
deriving DecidableEq, Repr

end Sys2Proof
end

