-- ==== Sys2Proof/Syntax.lean ====
section
/-!
DEFINITION. The commands of T6DE (30_encoding.md R92, spec/opcode_table.json), one constructor per row of the table. A command
takes no register operands (R96); KEXP alone has an immediate (R91).
-/

namespace Sys2Proof

/-- A legal command (30_encoding.md R92, R96). -/
inductive Instr where
  /-- `KEXP #b` (40_cipher.md R116). -/
  | kexp (imm8 : Byte)
  /-- `DECB` (40_cipher.md R117). -/
  | decb
  /-- `DECBUF` (41_buffer.md R141). -/
  | decbuf
  /-- `SCORE` (41_buffer.md R144). -/
  | score
  /-- `STRIP` (41_buffer.md R146). -/
  | strip
  /-- `SEARCH` (42_search.md R171). -/
  | search
deriving DecidableEq, Repr

end Sys2Proof
end

