-- ==== Sys2Proof/WellFormed.lean ====
section
/-!
DEFINITION. The fields of format C (30_encoding.md R90) and the checks that make a command word legal (R93), one check a
definition. `Instr.wellFormed` applies them to the fields of a command.
-/

namespace Sys2Proof

/-- Format C (30_encoding.md R90): OP = w[7:0], IMM8 = w[15:8], RSV = w[31:16]. -/
structure CommandFields where
  op : Byte
  imm8 : Byte
  rsv : BitVec 16
deriving DecidableEq, Repr

namespace CommandFields

/-- R93: `w[31:16] = 0`. -/
def rsvZero (f : CommandFields) : Bool := f.rsv = 0

/-- R93: OP is one of the six assigned values (R92). -/
def opAssigned (f : CommandFields) : Bool := 1 ≤ f.op.toNat ∧ f.op.toNat ≤ 6

/-- R93: IMM8 is zero unless the command is KEXP (OP 0x01). -/
def immAllowed (f : CommandFields) : Bool := f.op = 0x01 ∨ f.imm8 = 0

/-- `legal(w)` of 30_encoding.md R93, on the fields of w. -/
def legal (f : CommandFields) : Bool := f.rsvZero && f.opAssigned && f.immAllowed

end CommandFields

namespace Instr

/-- The field values of a command (30_encoding.md R92, R96). -/
def fields : Instr → CommandFields
  | .kexp b => ⟨0x01, b, 0⟩
  | .decb => ⟨0x02, 0, 0⟩
  | .decbuf => ⟨0x03, 0, 0⟩
  | .score => ⟨0x04, 0, 0⟩
  | .strip => ⟨0x05, 0, 0⟩
  | .search => ⟨0x06, 0, 0⟩

/-- A command is well formed when its fields pass every check of R93. The types leave no ill-formed command: KEXP's only
operand is a byte and every byte is a legal IMM8 (R91); the checks can fail on a word's fields alone. -/
def wellFormed (i : Instr) : Bool := i.fields.legal

end Instr

end Sys2Proof
end

