-- ==== Sys2Proof/Decode.lean ====
section
/-!
DEFINITION. The decoder, total on every 32-bit command word and rejecting by name (30_encoding.md R90 to R95), and after it the
encoder (R96).
-/

namespace Sys2Proof

/-- Why a command word is illegal (30_encoding.md R93). All three complete with ILLEGAL_COMMAND (R94). -/
inductive Illegal where
  /-- RSV = w[31:16] is not zero. -/
  | reservedBits
  /-- OP = w[7:0] is 0x00 or above 0x06. -/
  | opcode
  /-- IMM8 = w[15:8] is not zero and the command is not KEXP. -/
  | immediate
deriving DecidableEq, Repr

/-- What the decoder answers: a command, or the reason there is none. -/
inductive Decoded where
  | command (i : Instr)
  | illegal (why : Illegal)
deriving DecidableEq, Repr

/-- The fields of format C (30_encoding.md R90). -/
def fieldsOf (w : Word) : CommandFields :=
  { op := w.extractLsb' 0 8, imm8 := w.extractLsb' 8 8, rsv := w.extractLsb' 16 16 }

/-- A command without an immediate: IMM8 must be 0 (30_encoding.md R90, R93). -/
def withoutImm (f : CommandFields) (i : Instr) : Decoded :=
  if f.imm8 = 0 then .command i else .illegal .immediate

/-- The opcode map (30_encoding.md R92) on the fields of a word. -/
def decodeFields (f : CommandFields) : Decoded :=
  if f.rsv ≠ 0 then .illegal .reservedBits
  else if f.op = 0x01 then .command (.kexp f.imm8)
  else if f.op = 0x02 then withoutImm f .decb
  else if f.op = 0x03 then withoutImm f .decbuf
  else if f.op = 0x04 then withoutImm f .score
  else if f.op = 0x05 then withoutImm f .strip
  else if f.op = 0x06 then withoutImm f .search
  else .illegal .opcode

/-- The decoder: "a decoder always reads one whole word" (30_encoding.md R90). -/
def decode (w : Word) : Decoded := decodeFields (fieldsOf w)

/-- The encoder (30_encoding.md R96): `KEXP #b` is `(b << 8) | 0x01`, the others are fixed words. -/
def encode : Instr → Word
  | .kexp b => (b.setWidth 32 <<< 8) ||| 0x00000001
  | .decb => 0x00000002
  | .decbuf => 0x00000003
  | .score => 0x00000004
  | .strip => 0x00000005
  | .search => 0x00000006

/-- The command of a decoder's answer. -/
def Decoded.command? : Decoded → Option Instr
  | .command i => some i
  | .illegal _ => none

/-- The command word whose low `nbits` bits are those of `w`; none if it does not fit the one 32-bit format (R90). -/
def tableWord (nbits w : Nat) : Option Word :=
  if w % 2 ^ nbits < 2 ^ 32 then some (BitVec.ofNat 32 (w % 2 ^ nbits)) else none

/-- The command the decoder reads from a word numbered as spec/opcode_table.json numbers it. -/
def decodeTableWord (nbits w : Nat) : Option Instr :=
  match tableWord nbits w with
  | some cmd => (decode cmd).command?
  | none => none

end Sys2Proof
end

