-- ==== Sys2Proof/Config.lean ====
section
/-!
DEFINITION. What an implementation fixes (00_scope.md R7: BUF_BYTES, DEV_BASE) and the free values: constants without a body
that stand wherever the spec says "unspecified" (00_scope.md R13).
-/

namespace Sys2Proof

/-- The parameters of one T6DE instance (00_scope.md R7). R7's constraints hold by construction: BUF_BYTES is
`8 * (extraBlocks + 1)`, a multiple of 8 from 8 to 2^31, and DEV_BASE is `256 * windowPage`. -/
structure Config where
  /-- How many 8-byte blocks each buffer holds beyond its first; 268435456 = 2^28. -/
  extraBlocks : Fin 268435456
  /-- The host address of the register window, in units of 256 bytes. -/
  windowPage : Nat
deriving DecidableEq, Repr, Inhabited

namespace Config

/-- BUF_BYTES (00_scope.md R7): the capacity in bytes of each of CBUF and PBUF. -/
def bufBytes (c : Config) : Nat := 8 * (c.extraBlocks.val + 1)

/-- DEV_BASE (00_scope.md R7, 20_memory.md R77): the host address of the register window. -/
def devBase (c : Config) : Nat := 256 * c.windowPage

/-- The parameters of the instance that `State.reset` is the reset of: left open (DESIGN CHOICE, log 7). -/
opaque platform : Config

/-- The word of the n-th draw of an unspecified 32-bit value (00_scope.md R13; log 4). -/
opaque freeWord : Nat → Word

/-- Byte i of the n-th draw of unspecified bytes (00_scope.md R13; log 4). -/
opaque freeByte : Nat → Nat → Byte

end Config

end Sys2Proof
end

