-- ==== Sys2Proof/Machine/State.lean ====
section
/-!
DEFINITION. The state of the machine as plain data: every register of 10_state.md R24, the hidden LATCH (R40), the two buffers
(20_memory.md R60), the parameters (00_scope.md R7), and what the outside world is going to do. The state after reset is
10_state.md R44.
-/

namespace Sys2Proof.Machine

/-- Why a step can stop with a fault. -/
inductive Fault where
  /-- Raised by a host transaction whose size is not 32 bits or whose offset in the register window is not a multiple of 4:
  "A model treats such an access as a fault of the host step" (20_memory.md R64, 93 U10). Safe: the device answers a bus error
  and goes on unchanged (log 8). -/
  | busError
deriving DecidableEq, Repr

/-- Why a step can have no meaning. -/
inductive Refusal where
  /-- Raised by `exec` alone, for a command whose meaning is not written. Safe. No command of this model is refused. -/
  | notModelled (mnemonic : String)
deriving DecidableEq, Repr

/-- The values STATUS.ERRCODE takes (60_exceptions.md R191). The codes 1 (FRAMING_NOT_FOUND, "never raised") and 6 to 15
("never") have no constructor: 93 U11 makes a state that holds one unreachable (log 9). -/
inductive ErrorCode where
  | none
  | bodyMisaligned
  | keyNotFound
  | captureTooLarge
  | illegalCommand
deriving DecidableEq, Repr

/-- The fields of STATUS (10_state.md R26); its reserved bits have no storage. -/
structure Status where
  busy : Bool
  done : Bool
  err : Bool
  plausible : Bool
  found : Bool
  ovr : Bool
  berr : Bool
  errcode : ErrorCode
deriving DecidableEq, Repr

/-- One buffer (20_memory.md R60). `cells` lists the bytes written since reset, addresses strictly rising; a byte that is not
listed holds the unspecified value that reset left there, which is byte `a` of draw `epoch` (93 U3; log 5). -/
structure Memory where
  cells : List Host.Cell
  epoch : Nat
deriving DecidableEq, Repr

/-- One bus transaction of the host (10_state.md R21): a host address, an access size in bytes and, for a write, the word. -/
inductive Transaction where
  | read (addr size : Nat)
  | write (addr size : Nat) (v : Word)
deriving DecidableEq, Repr

/-- What happens next: the two agents and the one external event of 10_state.md R20. -/
inductive Move where
  | host (t : Transaction)
  | engine
  | reset
deriving DecidableEq, Repr

/-- What the host is answered on the bus. -/
inductive Answer where
  /-- Read data. -/
  | data (v : Word)
  /-- A write was taken. -/
  | done
  /-- The address is outside the register window: "not decoded by T6DE" (20_memory.md R77; log 8). -/
  | unclaimed
deriving DecidableEq, Repr

/-- The machine. The fields from `draws` on are the model's own (INVENTORY.md, State). -/
structure State where
  /-- BUF_BYTES (read in BUFSIZE) and DEV_BASE; no step changes them (00_scope.md R7, 10_state.md R38; log 7). -/
  cfg : Config
  status : Status
  len : Word
  outlen : Word
  /-- KEY0 to KEY3. -/
  key : Key
  /-- BLK0 and BLK1. -/
  blk : Block
  /-- KEYBYTE[7:0]; bits 31:8 read 0 (10_state.md R32). -/
  keyByte : Byte
  count : Word
  /-- CB_ADDR[31:2]; bits 1:0 are hard-wired to 0 (10_state.md R34). -/
  cbIndex : BitVec 30
  /-- PB_ADDR[31:2] (10_state.md R36). -/
  pbIndex : BitVec 30
  latch : Word
  cbuf : Memory
  pbuf : Memory
  /-- How many unspecified values have been drawn (log 4). -/
  draws : Nat
  /-- The moves to come, first one first (log 1). -/
  agenda : List Move
  /-- The bus's answers so far, newest first (log 3). -/
  answers : List Answer
deriving DecidableEq, Repr

/-- STATUS = 0x00000000 (10_state.md R44). -/
def Status.zero : Status :=
  { busy := false, done := false, err := false, plausible := false, found := false, ovr := false, berr := false,
    errcode := .none }

/-- The reset state of 10_state.md R44 for the parameters `c`, its three unspecified values (LATCH, the bytes of CBUF, the bytes
of PBUF) being the draws `d`, `d + 1` and `d + 2`. -/
def State.resetAt (c : Config) (d : Nat) : State :=
  { cfg := c
    status := Status.zero
    len := 0
    outlen := 0
    key := ⟨0, 0, 0, 0⟩
    blk := ⟨0, 0⟩
    keyByte := 0
    count := 0
    cbIndex := 0
    pbIndex := 0
    latch := Config.freeWord (d + 2)
    cbuf := ⟨[], d⟩
    pbuf := ⟨[], d + 1⟩
    draws := d + 3
    agenda := []
    answers := [] }

/-- The machine right after reset (70_reset_and_hazards.md R221: a model's initial state; log 4, log 6, log 7). -/
def State.reset : State := State.resetAt Config.platform 0

end Sys2Proof.Machine
end

