-- ==== Sys2Proof/Machine/Flags.lean ====
section
/-!
DEFINITION. STATUS: its word view (10_state.md R26), how acceptance (R25), completion (R22) and a host write (R27) change it, and
the computation of PLAUSIBLE (41_buffer.md R142, R143).
-/

namespace Sys2Proof.Machine

/-- The 4-bit code of STATUS.ERRCODE (60_exceptions.md R191). -/
def ErrorCode.code : ErrorCode → BitVec 4
  | .none => 0
  | .bodyMisaligned => 2
  | .keyNotFound => 3
  | .captureTooLarge => 4
  | .illegalCommand => 5

namespace Status

/-- STATUS as the host reads it (10_state.md R26); the first part is bits 31:12, the last bit 0. -/
def word (s : Status) : Word :=
  0#20 ++ s.errcode.code ++ 0#1 ++ BitVec.ofBool s.berr ++ BitVec.ofBool s.ovr ++ BitVec.ofBool s.found
    ++ BitVec.ofBool s.plausible ++ BitVec.ofBool s.err ++ BitVec.ofBool s.done ++ BitVec.ofBool s.busy

/-- Acceptance (10_state.md R25): PLAUSIBLE, FOUND, OVR and BERR are unchanged. -/
def accepted (s : Status) : Status :=
  { s with busy := true, done := false, err := false, errcode := .none }

/-- Completion (10_state.md R22) with an error code, or with `none` on success. -/
def completed (s : Status) (code : ErrorCode) : Status :=
  { s with busy := false, done := true, err := decide (code ≠ .none), errcode := code }

/-- A host write of `v` to STATUS (10_state.md R27): bits 5 and 6 are write-1-to-clear, all other bits of `v` are ignored. -/
def clearedBy (s : Status) (v : Word) : Status :=
  { s with ovr := s.ovr && !v.getLsbD 5, berr := s.berr && !v.getLsbD 6 }

end Status

/-- A printable byte (41_buffer.md R142). -/
def printable (c : Byte) : Bool :=
  (0x20 ≤ c.toNat ∧ c.toNat ≤ 0x7E) ∨ c = 0x0A ∨ c = 0x0D ∨ c = 0x09

/-- count(s) of 41_buffer.md R143. -/
def printableCount : List Byte → Nat
  | [] => 0
  | c :: s => (if printable c then 1 else 0) + printableCount s

/-- plausible(s) of 41_buffer.md R143: strictly more than 70%, on natural numbers. -/
def plausible (s : List Byte) : Bool := s.length * 7 < printableCount s * 10

end Sys2Proof.Machine
end

