-- ==== Sys2Proof/Machine/Ops.lean ====
section
/-!
DEFINITION. The shared operations: bytes and words of a buffer (00_scope.md R12), completing a command with success or with an
error (10_state.md R22, 60_exceptions.md R190), acceptance (10_state.md R25), which is also what ends an error (60_exceptions.md
R195), and answering the host.
-/

namespace Sys2Proof.Machine

/-- The stored byte at `a`, if one is listed. -/
def findCell : List Host.Cell → Nat → Option Byte
  | [], _ => none
  | (b, w) :: rest, a => if a = b then some w else findCell rest a

/-- The cells with `v` at `a`, rising addresses kept. -/
def putCell : List Host.Cell → Nat → Byte → List Host.Cell
  | [], a, v => [(a, v)]
  | (b, w) :: rest, a, v =>
    if a < b then (a, v) :: (b, w) :: rest
    else if a = b then (a, v) :: rest
    else (b, w) :: putCell rest a v

/-- No address is below `lo` and the addresses rise strictly. -/
def risingFrom : Nat → List Host.Cell → Bool
  | _, [] => true
  | lo, (b, _) :: rest => lo ≤ b && risingFrom (b + 1) rest

namespace Memory

/-- The canonical form: addresses strictly rising. What an unlisted address holds is a free value, so no entry can be compared
with it and none is removed for being equal to it (log 5). -/
def wf (m : Memory) : Bool := risingFrom 0 m.cells

/-- Every listed address is below `n`. -/
def within (m : Memory) (n : Nat) : Bool := m.cells.all (fun cell => cell.1 < n)

/-- What a byte that is not listed holds: unspecified since reset (10_state.md R44, 93 U3). -/
def unwritten (m : Memory) (a : Nat) : Byte := Config.freeByte m.epoch a

/-- `B[a]` (00_scope.md R12). -/
def readByte (m : Memory) (a : Nat) : Byte := (findCell m.cells a).getD (m.unwritten a)

/-- `B[a] <- v`. -/
def writeByte (m : Memory) (a : Nat) (v : Byte) : Memory := { m with cells := putCell m.cells a v }

/-- `B[off .. off + n)` (00_scope.md R12). -/
def readBytes (m : Memory) : Nat → Nat → List Byte
  | _, 0 => []
  | off, n + 1 => m.readByte off :: m.readBytes (off + 1) n

/-- `B[off .. off + length) <- bytes`. -/
def writeBytes (m : Memory) : Nat → List Byte → Memory
  | _, [] => m
  | off, v :: rest => (m.writeByte off v).writeBytes (off + 1) rest

end Memory

/-- Four bytes as a word, the first the least significant (20_memory.md R61). -/
def wordOfBytes (b0 b1 b2 b3 : Byte) : Word := b3 ++ b2 ++ b1 ++ b0

/-- The bytes of a word, least significant first (20_memory.md R61, R62). -/
def bytesOfWord (v : Word) : List Byte :=
  [v.extractLsb' 0 8, v.extractLsb' 8 8, v.extractLsb' 16 8, v.extractLsb' 24 8]

namespace Memory

/-- `MemRead(B, off, 4)` (00_scope.md R12). -/
def readWord (m : Memory) (a : Nat) : Word :=
  wordOfBytes (m.readByte a) (m.readByte (a + 1)) (m.readByte (a + 2)) (m.readByte (a + 3))

/-- `MemWrite(B, off, 4, v)` (00_scope.md R12). -/
def writeWord (m : Memory) (a : Nat) (v : Word) : Memory := m.writeBytes a (bytesOfWord v)

end Memory

namespace State

/-- BUF_BYTES of this machine. -/
def bufBytes (s : State) : Nat := s.cfg.bufBytes

/-- The end of a command (10_state.md R22). With `none` it succeeded; with another code it is `raise Error(code)` (00_scope.md
R13, 60_exceptions.md R190): no state but STATUS is written, no pc is saved and no handler entered. -/
def complete (s : State) (code : ErrorCode) : State := { s with status := s.status.completed code }

/-- Acceptance of a command word (10_state.md R25). It is also the only way out of an error: "the next accepted command clears
DONE, ERR and ERRCODE" (60_exceptions.md R195). -/
def accept (s : State) (w : Word) : State := { s with latch := w, status := s.status.accepted }

/-- The host is answered. -/
def answer (s : State) (a : Answer) : State := { s with answers := a :: s.answers }

/-- A read returns an unspecified 32-bit value: a new draw (00_scope.md R13; log 4). -/
def answerFree (s : State) : State :=
  { s with answers := .data (Config.freeWord s.draws) :: s.answers, draws := s.draws + 1 }

/-- A write is discarded because BUSY = 1 (70_reset_and_hazards.md R223): OVR is set, nothing else changes. -/
def overrun (s : State) : State := { s with status := { s.status with ovr := true } }

/-- A port access fell outside its buffer (20_memory.md R66, R67): BERR is set. -/
def portError (s : State) : State := { s with status := { s.status with berr := true } }

end State

end Sys2Proof.Machine
end

