-- ==== Sys2Proof/Machine/Operands.lean ====
section
/-!
DEFINITION. What commands and transactions name: the register at an offset of the window (10_state.md R24), the buffer addresses
with their hard-wired bits (R34, R36), and the operands of the buffer commands with the length checks of 60_exceptions.md R192.
-/

namespace Sys2Proof.Machine

/-- The rows of the register map (10_state.md R24). -/
inductive Reg where
  | cmd | status | len | outlen | key0 | key1 | key2 | key3 | blk0 | blk1 | keyByte | count | cbAddr | cbData | pbAddr | pbData
  | bufsize | reserved
deriving DecidableEq, Repr

/-- The register at an offset that is a multiple of 4 (10_state.md R24); 0x44 to 0xFC are reserved. -/
def regAt (off : Nat) : Reg :=
  match off with
  | 0x00 => .cmd
  | 0x04 => .status
  | 0x08 => .len
  | 0x0C => .outlen
  | 0x10 => .key0
  | 0x14 => .key1
  | 0x18 => .key2
  | 0x1C => .key3
  | 0x20 => .blk0
  | 0x24 => .blk1
  | 0x28 => .keyByte
  | 0x2C => .count
  | 0x30 => .cbAddr
  | 0x34 => .cbData
  | 0x38 => .pbAddr
  | 0x3C => .pbData
  | 0x40 => .bufsize
  | _ => .reserved

/-- An address register from its stored bits 31:2; bits 1:0 are 0 (10_state.md R34). -/
def addrOfIndex (x : BitVec 30) : Word := x ++ 0#2

/-- The bits of a write to an address register that are kept, 31:2 (10_state.md R34). -/
def indexOfAddr (v : Word) : BitVec 30 := v.extractLsb' 2 30

/-- The offset of the four bytes a port access names, a multiple of 4 (20_memory.md R65). -/
def portOffset (x : BitVec 30) : Nat := 4 * x.toNat

namespace State

/-- CB_ADDR. -/
def cbAddr (s : State) : Word := addrOfIndex s.cbIndex

/-- PB_ADDR. -/
def pbAddr (s : State) : Word := addrOfIndex s.pbIndex

/-- KEYBYTE as a register (10_state.md R32). -/
def keyByteWord (s : State) : Word := s.keyByte.setWidth 32

/-- BUFSIZE (10_state.md R38). -/
def bufsize (s : State) : Word := BitVec.ofNat 32 s.bufBytes

/-- The length operand n of the buffer commands, a natural number (10_state.md R28, 00_scope.md R10). -/
def length (s : State) : Nat := s.len.toNat

/-- `CBUF[0..n)`. -/
def cipherBody (s : State) : List Byte := s.cbuf.readBytes 0 s.length

/-- `PBUF[0..n)`. -/
def plainBody (s : State) : List Byte := s.pbuf.readBytes 0 s.length

/-- The check of SCORE and STRIP (41_buffer.md R144, R146): the error to raise, `none` when the command goes on. -/
def lengthError (s : State) : ErrorCode :=
  if s.bufBytes < s.length then .captureTooLarge else .none

/-- The checks of DECBUF and SEARCH, in the order of 60_exceptions.md R193 (41_buffer.md R141, 42_search.md R171). -/
def bodyError (s : State) : ErrorCode :=
  if s.bufBytes < s.length then .captureTooLarge
  else if s.length = 0 ∨ s.length % 8 ≠ 0 then .bodyMisaligned
  else .none

end State

end Sys2Proof.Machine
end

