-- ==== Sys2Proof/Machine/Cipher.lean ====
section
/-!
DEFINITION. Key expansion and block cipher (40_cipher.md): the constants, the round function, block decryption, its inverse as a
reference, and the meanings of KEXP and DECB.
-/

namespace Sys2Proof.Machine

/-- DELTA (40_cipher.md R112). -/
def delta : Word := 0x9E3779B9

/-- SUM0 (40_cipher.md R112). -/
def sum0 : Word := 0xC6EF3720

/-- rep4(b) (00_scope.md R13). -/
def rep4 (b : Byte) : Word := b ++ b ++ b ++ b

/-- K(b), the repeated-byte key (40_cipher.md R110). -/
def expandKey (b : Byte) : Key := ⟨rep4 b, rep4 b, rep4 b, rep4 b⟩

/-- F of 40_cipher.md R113. -/
def mix (v s ka kb : Word) : Word := ((v <<< 4) + ka) ^^^ (v + s) ^^^ ((v >>> 5) + kb)

/-- One round of decrypt_block at a running sum (40_cipher.md R114): y is updated with the new z. -/
def decryptRound (k : Key) (sum : Word) (b : Block) : Block :=
  let z := b.z - mix b.y sum k.key2 k.key3
  ⟨b.y - mix z sum k.key0 k.key1, z⟩

/-- `n` rounds of decrypt_block from a running sum (40_cipher.md R114). -/
def decryptRounds (k : Key) : Nat → Word → Block → Block
  | 0, _, b => b
  | n + 1, sum, b => decryptRounds k n (sum - delta) (decryptRound k sum b)

/-- decrypt_block (40_cipher.md R114): exactly 32 rounds from SUM0. -/
def decryptBlock (b : Block) (k : Key) : Block := decryptRounds k 32 sum0 b

/-- One round of encrypt_block at a running sum (40_cipher.md R115). -/
def encryptRound (k : Key) (sum : Word) (b : Block) : Block :=
  let y := b.y + mix b.z sum k.key0 k.key1
  ⟨y, b.z + mix y sum k.key2 k.key3⟩

/-- `n` rounds of encrypt_block from a running sum (40_cipher.md R115). -/
def encryptRounds (k : Key) : Nat → Word → Block → Block
  | 0, _, b => b
  | n + 1, sum, b => encryptRounds k n (sum + delta) (encryptRound k (sum + delta) b)

/-- encrypt_block (40_cipher.md R115): a reference for claims, no command of T6DE. -/
def encryptBlock (b : Block) (k : Key) : Block := encryptRounds k 32 0 b

/-- KEXP (40_cipher.md R116). -/
def execKexp (imm8 : Byte) (s : State) : Host.Outcome State Fault Refusal :=
  .next (State.complete { s with key := expandKey imm8, keyByte := imm8 } .none)

/-- DECB (40_cipher.md R117). -/
def execDecb (s : State) : Host.Outcome State Fault Refusal :=
  .next (State.complete { s with blk := decryptBlock s.blk s.key } .none)

end Sys2Proof.Machine
end

