-- ==== Sys2Proof/Machine/Buffer.lean ====
section
/-!
DEFINITION. The buffer commands (41_buffer.md): decryption of a body, the padding remover, and the meanings of DECBUF, SCORE and
STRIP.
-/

namespace Sys2Proof.Machine

/-- decrypt_body (41_buffer.md R140): 8 bytes at a time, each block on its own. A tail of fewer than 8 bytes has no block; R140
is for lengths that are multiples of 8. -/
def decryptBody (k : Key) : List Byte → List Byte
  | b0 :: b1 :: b2 :: b3 :: b4 :: b5 :: b6 :: b7 :: rest =>
    let p := decryptBlock ⟨wordOfBytes b0 b1 b2 b3, wordOfBytes b4 b5 b6 b7⟩ k
    bytesOfWord p.y ++ (bytesOfWord p.z ++ decryptBody k rest)
  | _ => []

/-- strip_len (41_buffer.md R145). -/
def stripLen (s : List Byte) : Nat :=
  match s.getLast? with
  | none => 0
  | some last =>
    let pad := last.toNat
    if 1 ≤ pad ∧ pad ≤ 8 ∧ pad ≤ s.length ∧ (s.drop (s.length - pad)).all (· == last) then s.length - pad
    else s.length

/-- DECBUF (41_buffer.md R141). -/
def execDecbuf (s : State) : Host.Outcome State Fault Refusal :=
  match s.bodyError with
  | .none => .next (State.complete { s with pbuf := s.pbuf.writeBytes 0 (decryptBody s.key s.cipherBody) } .none)
  | code => .next (s.complete code)

/-- PLAUSIBLE cleared at the start of a legal SCORE (41_buffer.md R144). -/
def State.withPlausible (s : State) (p : Bool) : State := { s with status := { s.status with plausible := p } }

/-- SCORE (41_buffer.md R144): PLAUSIBLE is cleared before the length is checked. -/
def execScore (s : State) : Host.Outcome State Fault Refusal :=
  match s.lengthError with
  | .none =>
    .next (State.complete
      { s.withPlausible (plausible s.plainBody) with count := BitVec.ofNat 32 (printableCount s.plainBody) } .none)
  | code => .next ((s.withPlausible false).complete code)

/-- STRIP (41_buffer.md R146). -/
def execStrip (s : State) : Host.Outcome State Fault Refusal :=
  match s.lengthError with
  | .none => .next (State.complete { s with outlen := BitVec.ofNat 32 (stripLen s.plainBody) } .none)
  | code => .next (s.complete code)

end Sys2Proof.Machine
end

