-- ==== Sys2Proof/Machine/Search.lean ====
section
/-!
DEFINITION. The key search (42_search.md): the sequential loop of R171 over the 256 candidates in ascending order, what Found and
Exhausted leave, and the meaning of SEARCH.
-/

namespace Sys2Proof.Machine

/-- The candidate key bytes from `i` on, `n` of them, ascending (42_search.md R170). -/
def candidatesFrom : Nat → Nat → List Byte
  | _, 0 => []
  | i, n + 1 => BitVec.ofNat 8 i :: candidatesFrom (i + 1) n

/-- One trial (42_search.md R171): the body under K(b). -/
def trial (c : List Byte) (b : Byte) : List Byte := decryptBody (expandKey b) c

/-- The first candidate of a list whose trial is plausible: Searching(i) until Found or Exhausted (42_search.md R170). -/
def firstPlausible (c : List Byte) : List Byte → Option Byte
  | [] => none
  | b :: rest => if plausible (trial c b) then some b else firstPlausible c rest

/-- `n` unspecified bytes of draw `d` (00_scope.md R13). -/
def freeBytes (d : Nat) : Nat → Nat → List Byte
  | _, 0 => []
  | i, n + 1 => Config.freeByte d i :: freeBytes d (i + 1) n

namespace State

/-- PLAUSIBLE and FOUND, cleared at the start of a legal SEARCH and set on Found (42_search.md R171). -/
def withVerdict (s : State) (found : Bool) : State :=
  { s with status := { s.status with plausible := found, found := found } }

/-- Found with key byte `b` (42_search.md R171). -/
def searchFound (s : State) (b : Byte) : State :=
  let p := trial s.cipherBody b
  State.complete
    { s.withVerdict true with
      pbuf := s.pbuf.writeBytes 0 p
      key := expandKey b
      keyByte := b
      count := BitVec.ofNat 32 (printableCount p)
      outlen := BitVec.ofNat 32 (stripLen p) }
    .none

/-- Exhausted (42_search.md R171): PBUF[0..n), KEY0 to KEY3, KEYBYTE[7:0] and COUNT become unspecified, each a draw of its own
(93 U4; log 4, log 12); OUTLEN is unchanged. -/
def searchExhausted (s : State) : State :=
  State.complete
    { s.withVerdict false with
      pbuf := s.pbuf.writeBytes 0 (freeBytes s.draws 0 s.length)
      key := ⟨Config.freeWord (s.draws + 1), Config.freeWord (s.draws + 2), Config.freeWord (s.draws + 3),
        Config.freeWord (s.draws + 4)⟩
      keyByte := Config.freeByte (s.draws + 5) 0
      count := Config.freeWord (s.draws + 6)
      draws := s.draws + 7 }
    .keyNotFound

end State

/-- SEARCH (42_search.md R171). The key registers it finds are ignored; CBUF, LEN, BLK0 and BLK1 are unchanged. -/
def execSearch (s : State) : Host.Outcome State Fault Refusal :=
  match s.bodyError with
  | .none =>
    match firstPlausible s.cipherBody (candidatesFrom 0 256) with
    | some b => .next (s.searchFound b)
    | none => .next s.searchExhausted
  | code => .next ((s.withVerdict false).complete code)

end Sys2Proof.Machine
end

