-- ==== Sys2Proof/Machine/Dispatch.lean ====
section
/-!
DEFINITION. The meaning of each command, one arm a constructor (30_encoding.md R92).
-/

namespace Sys2Proof.Machine

def exec (i : Instr) (s : State) : Host.Outcome State Fault Refusal :=
  match i with
  | .kexp imm8 => Sys2Proof.Machine.execKexp imm8 s
  | .decb => Sys2Proof.Machine.execDecb s
  | .decbuf => Sys2Proof.Machine.execDecbuf s
  | .score => Sys2Proof.Machine.execScore s
  | .strip => Sys2Proof.Machine.execStrip s
  | .search => Sys2Proof.Machine.execSearch s

end Sys2Proof.Machine
end

