-- ==== Sys2Proof/Machine/HostBus.lean ====
section
/-!
DEFINITION. The host step (10_state.md R21): one bus transaction to the register window, for every register, while idle and while
BUSY (10_state.md R24 to R39, 20_memory.md R64 to R67, R77, 70_reset_and_hazards.md R223, R224).
-/

namespace Sys2Proof.Machine

/-- Do the four bytes at a port's offset lie in the buffer (20_memory.md R66: `a + 4 <= BUF_BYTES`)? -/
def State.portInside (s : State) (x : BitVec 30) : Bool := portOffset x + 4 ≤ s.bufBytes

/-- A write of CB_DATA while idle (20_memory.md R66). -/
def writeCbData (v : Word) (s : State) : State :=
  if s.portInside s.cbIndex then
    { s with cbuf := s.cbuf.writeWord (portOffset s.cbIndex) v, cbIndex := s.cbIndex + 1 }
  else { s.portError with cbIndex := s.cbIndex + 1 }

/-- A write of PB_DATA while idle (20_memory.md R66, 10_state.md R37). -/
def writePbData (v : Word) (s : State) : State :=
  if s.portInside s.pbIndex then
    { s with pbuf := s.pbuf.writeWord (portOffset s.pbIndex) v, pbIndex := s.pbIndex + 1 }
  else { s.portError with pbIndex := s.pbIndex + 1 }

/-- A read of CB_DATA while idle (20_memory.md R67). -/
def readCbData (s : State) : State :=
  if s.portInside s.cbIndex then
    State.answer { s with cbIndex := s.cbIndex + 1 } (.data (s.cbuf.readWord (portOffset s.cbIndex)))
  else State.answer { s.portError with cbIndex := s.cbIndex + 1 } (.data 0)

/-- A read of PB_DATA while idle (20_memory.md R67, 10_state.md R37). -/
def readPbData (s : State) : State :=
  if s.portInside s.pbIndex then
    State.answer { s with pbIndex := s.pbIndex + 1 } (.data (s.pbuf.readWord (portOffset s.pbIndex)))
  else State.answer { s.portError with pbIndex := s.pbIndex + 1 } (.data 0)

/-- A host read while BUSY = 0 (10_state.md R24; R39 for the reserved offsets). -/
def readIdle (r : Reg) (s : State) : State :=
  match r with
  | .cmd => s.answer (.data 0)
  | .status => s.answer (.data s.status.word)
  | .len => s.answer (.data s.len)
  | .outlen => s.answer (.data s.outlen)
  | .key0 => s.answer (.data s.key.key0)
  | .key1 => s.answer (.data s.key.key1)
  | .key2 => s.answer (.data s.key.key2)
  | .key3 => s.answer (.data s.key.key3)
  | .blk0 => s.answer (.data s.blk.y)
  | .blk1 => s.answer (.data s.blk.z)
  | .keyByte => s.answer (.data s.keyByteWord)
  | .count => s.answer (.data s.count)
  | .cbAddr => s.answer (.data s.cbAddr)
  | .cbData => readCbData s
  | .pbAddr => s.answer (.data s.pbAddr)
  | .pbData => readPbData s
  | .bufsize => s.answer (.data s.bufsize)
  | .reserved => s.answer (.data 0)

/-- A host read while BUSY = 1 (70_reset_and_hazards.md R224): STATUS, BUFSIZE, CMD and the reserved offsets read as always; every
other register returns an unspecified value and has no side effect. -/
def readBusy (r : Reg) (s : State) : State :=
  match r with
  | .status => s.answer (.data s.status.word)
  | .bufsize => s.answer (.data s.bufsize)
  | .cmd => s.answer (.data 0)
  | .reserved => s.answer (.data 0)
  | .len => s.answerFree
  | .outlen => s.answerFree
  | .key0 => s.answerFree
  | .key1 => s.answerFree
  | .key2 => s.answerFree
  | .key3 => s.answerFree
  | .blk0 => s.answerFree
  | .blk1 => s.answerFree
  | .keyByte => s.answerFree
  | .count => s.answerFree
  | .cbAddr => s.answerFree
  | .cbData => s.answerFree
  | .pbAddr => s.answerFree
  | .pbData => s.answerFree

/-- The effect of a host write while BUSY = 0 (10_state.md R24 to R39). -/
def writeIdle (r : Reg) (v : Word) (s : State) : State :=
  match r with
  | .cmd => s.accept v
  | .status => { s with status := s.status.clearedBy v }
  | .len => { s with len := v }
  | .outlen => s
  | .key0 => { s with key := { s.key with key0 := v } }
  | .key1 => { s with key := { s.key with key1 := v } }
  | .key2 => { s with key := { s.key with key2 := v } }
  | .key3 => { s with key := { s.key with key3 := v } }
  | .blk0 => { s with blk := { s.blk with y := v } }
  | .blk1 => { s with blk := { s.blk with z := v } }
  | .keyByte => s
  | .count => s
  | .cbAddr => { s with cbIndex := indexOfAddr v }
  | .cbData => writeCbData v s
  | .pbAddr => { s with pbIndex := indexOfAddr v }
  | .pbData => writePbData v s
  | .bufsize => s
  | .reserved => s

/-- The effect of a host write while BUSY = 1 (70_reset_and_hazards.md R223). -/
def writeBusy (r : Reg) (v : Word) (s : State) : State :=
  match r with
  | .status => { s with status := s.status.clearedBy v }
  | .outlen => s
  | .keyByte => s
  | .count => s
  | .bufsize => s
  | .reserved => s
  | .cmd => s.overrun
  | .len => s.overrun
  | .key0 => s.overrun
  | .key1 => s.overrun
  | .key2 => s.overrun
  | .key3 => s.overrun
  | .blk0 => s.overrun
  | .blk1 => s.overrun
  | .cbAddr => s.overrun
  | .cbData => s.overrun
  | .pbAddr => s.overrun
  | .pbData => s.overrun

/-- A host read of a register. -/
def hostRead (r : Reg) (s : State) : State := if s.status.busy then readBusy r s else readIdle r s

/-- A host write of a register. -/
def hostWrite (r : Reg) (v : Word) (s : State) : State :=
  (if s.status.busy then writeBusy r v s else writeIdle r v s).answer .done

/-- The offset of a host address in the register window (20_memory.md R77); none outside it. -/
def windowOffset (c : Config) (addr : Nat) : Option Nat :=
  if c.devBase ≤ addr ∧ addr < c.devBase + 256 then some (addr - c.devBase) else none

/-- Is an access a 32-bit access at an offset that is a multiple of 4 (20_memory.md R64)? -/
def accessAllowed (off size : Nat) : Bool := size = 4 ∧ off % 4 = 0

/-- A transaction that reaches the window. -/
def windowStep (t : Transaction) (off : Nat) (s : State) : Host.Outcome State Fault Refusal :=
  match t with
  | .read _ size => if accessAllowed off size then .next (hostRead (regAt off) s) else .fault .busError
  | .write _ size v => if accessAllowed off size then .next (hostWrite (regAt off) v s) else .fault .busError

/-- The host address of a transaction. -/
def Transaction.address : Transaction → Nat
  | .read addr _ => addr
  | .write addr _ _ => addr

/-- The host step (10_state.md R21). An address outside the window is "not decoded by T6DE" (20_memory.md R77). -/
def hostStep (t : Transaction) (s : State) : Host.Outcome State Fault Refusal :=
  match windowOffset s.cfg t.address with
  | some off => windowStep t off s
  | none => .next (s.answer .unclaimed)

end Sys2Proof.Machine
end

