-- ==== Sys2Proof/Machine/Agents.lean ====
section
/-!
DEFINITION. The agents of 10_state.md R20: the engine step (R22), the reset event (70_reset_and_hazards.md R220), and which of
them moves next (20_memory.md R72; log 1).
-/

namespace Sys2Proof.Machine

/-- The engine step (10_state.md R22), for a state with BUSY = 1: the latched word is decoded and run; an illegal word completes
with ILLEGAL_COMMAND and changes nothing else (30_encoding.md R94). -/
def engineStep (s : State) : Host.Outcome State Fault Refusal :=
  match decode s.latch with
  | .command i => exec i s
  | .illegal _ => .next (s.complete .illegalCommand)

/-- An engine turn: a step exactly when BUSY = 1 (10_state.md R22); otherwise nothing happens. -/
def engineTurn (s : State) : Host.Outcome State Fault Refusal :=
  if s.status.busy then engineStep s else .next s

/-- The reset event (70_reset_and_hazards.md R220): the command in flight is abandoned, every register takes its reset value and
the buffers become unspecified anew. What the outside world still does, and what it was answered, is not T6DE's state. -/
def resetEvent (s : State) : State :=
  { State.resetAt s.cfg s.draws with agenda := s.agenda, answers := s.answers }

/-- One move. -/
def runMove (m : Move) (s : State) : Host.Outcome State Fault Refusal :=
  match m with
  | .host t => hostStep t s
  | .engine => engineTurn s
  | .reset => .next (resetEvent s)

/-- The next move of the agenda; when it is empty, the engine's (10_state.md R23: an enabled engine step is eventually taken). -/
def advance (s : State) : Host.Outcome State Fault Refusal :=
  match s.agenda with
  | [] => engineTurn s
  | m :: rest => runMove m { s with agenda := rest }

/-- A machine whose next move is the engine's: BUSY = 1 as after acceptance, with the word latched (10_state.md R25). Other moves
to come stay behind it. -/
def State.latched (s : State) (w : Word) : State :=
  { s.accept w with
    agenda := match s.agenda with
      | [] => []
      | m :: rest => .engine :: m :: rest }

end Sys2Proof.Machine
end

