-- ==== Sys2Proof/Machine/Step.lean ====
section
/-!
DEFINITION. One step of the machine, and where a command word is placed for the very next step to run it.
-/

namespace Sys2Proof.Machine

/-- One step: the next move of the host, the engine or reset (10_state.md R20 to R22). -/
def step (s : State) : Host.Outcome State Fault Refusal := advance s

/-- `s` with a command word in LATCH and the engine to move next (log 2). -/
def State.withFetchWord (s : State) (nbits w : Nat) : State :=
  match tableWord nbits w with
  | some cmd => s.latched cmd
  | none => s.latched 0

end Sys2Proof.Machine
end

