-- ==== Sys2Proof/Safety.lean ====
section
/-!
DEFINITION. The terms the claims are stated in: the invariant of the machine, the moves that stand first in the agenda, and the
spec's own formulas for what commands compute, written from the rules and not from the meanings.
-/

namespace Sys2Proof.Safety

open Sys2Proof.Machine

/-- The relations between BUSY, DONE, ERR and ERRCODE that 10_state.md R26 states. -/
def StatusConsistent (s : Status) : Prop :=
  ¬(s.busy = true ∧ s.done = true) ∧ (s.err = true → s.done = true ∧ s.errcode ≠ .none) ∧
    (s.err = false → s.errcode = .none)

/-- A buffer in canonical form whose listed bytes all exist: offsets 0 to BUF_BYTES - 1 (20_memory.md R60). -/
def BufferOk (n : Nat) (m : Memory) : Prop := m.wf = true ∧ m.within n = true

/-- The invariant of the machine: what holds at reset and is kept by every step. `fresh` is about the model's own counter
`draws` (log 4): the unwritten bytes of the buffers come from draws already made, a different one for each buffer. -/
structure Inv (s : State) : Prop where
  status : StatusConsistent s.status
  cbuf : BufferOk s.bufBytes s.cbuf
  pbuf : BufferOk s.bufBytes s.pbuf
  outlen : s.outlen.toNat ≤ s.bufBytes
  fresh : s.cbuf.epoch < s.draws ∧ s.pbuf.epoch < s.draws ∧ s.cbuf.epoch ≠ s.pbuf.epoch

/-- `s` with the moves still to come replaced: a step takes its move off the agenda. -/
def withAgenda (s : State) (rest : List Move) : State := { s with agenda := rest }

/-- The host's next transaction is a 32-bit write of `v` at offset `off` of the register window; `rest` is to come after it. -/
def HostWrites (s : State) (off : Nat) (v : Word) (rest : List Move) : Prop :=
  s.agenda = .host (.write (s.cfg.devBase + off) 4 v) :: rest

/-- The host's next transaction is a 32-bit read at offset `off` of the register window. -/
def HostReads (s : State) (off : Nat) (rest : List Move) : Prop :=
  s.agenda = .host (.read (s.cfg.devBase + off) 4) :: rest

/-- The access size of a transaction, in bytes. -/
def accessSize : Transaction → Nat
  | .read _ size => size
  | .write _ size _ => size

/-- The transaction reaches the window with a wrong size or a wrong alignment (20_memory.md R64). -/
def Misaccess (c : Config) (t : Transaction) : Prop :=
  c.devBase ≤ t.address ∧ t.address < c.devBase + 256 ∧ (accessSize t ≠ 4 ∨ (t.address - c.devBase) % 4 ≠ 0)

/-- A move that is no misaccess. -/
def Orderly (c : Config) : Move → Prop
  | .host t => ¬Misaccess c t
  | .engine => True
  | .reset => True

/-- STATUS after a successful command, PLAUSIBLE, FOUND, OVR and BERR as before (10_state.md R22). -/
def succeeded (s : Status) : Status :=
  { busy := false, done := true, err := false, plausible := s.plausible, found := s.found, ovr := s.ovr, berr := s.berr,
    errcode := .none }

/-- STATUS after a command that raised an error, PLAUSIBLE, FOUND, OVR and BERR as before (10_state.md R22). -/
def failed (s : Status) (code : ErrorCode) : Status :=
  { busy := false, done := true, err := true, plausible := s.plausible, found := s.found, ovr := s.ovr, berr := s.berr,
    errcode := code }

/-- The 261 words of 30_encoding.md R93: `0x0000bb01` for every byte `bb`, and the words 2 to 6. -/
def legalWords : List Word :=
  (List.range 256).map (fun b => BitVec.ofNat 32 (b * 256 + 1)) ++ [0x00000002, 0x00000003, 0x00000004, 0x00000005, 0x00000006]

/-- The formula of `legal(w)` in 30_encoding.md R93. -/
def LegalWord (w : Word) : Prop :=
  w.extractLsb' 16 16 = 0 ∧ (1 ≤ (w.extractLsb' 0 8).toNat ∧ (w.extractLsb' 0 8).toNat ≤ 6) ∧
    (w.extractLsb' 0 8 = 0x01 ∨ w.extractLsb' 8 8 = 0)

/-- The loop body of decrypt_block (40_cipher.md R114) on (sum, (y, z)), with its formulas in the rule's own form. -/
def decryptLoopBody (k : Key) (x : Word × Block) : Word × Block :=
  let z := x.2.z - (((x.2.y <<< 4) + k.key2) ^^^ (x.2.y + x.1) ^^^ ((x.2.y >>> 5) + k.key3))
  let y := x.2.y - (((z <<< 4) + k.key0) ^^^ (z + x.1) ^^^ ((z >>> 5) + k.key1))
  (x.1 - 0x9E3779B9, ⟨y, z⟩)

/-- decrypt_block (40_cipher.md R114): the loop body 32 times from (SUM0, (y, z)); the sum is the first component. -/
def decryptLoop (b : Block) (k : Key) : Word × Block := (decryptLoopBody k)^[32] (0xC6EF3720, b)

/-- The loop body of encrypt_block (40_cipher.md R115). -/
def encryptLoopBody (k : Key) (x : Word × Block) : Word × Block :=
  let sum := x.1 + 0x9E3779B9
  let y := x.2.y + (((x.2.z <<< 4) + k.key0) ^^^ (x.2.z + sum) ^^^ ((x.2.z >>> 5) + k.key1))
  let z := x.2.z + (((y <<< 4) + k.key2) ^^^ (y + sum) ^^^ ((y >>> 5) + k.key3))
  (sum, ⟨y, z⟩)

/-- encrypt_block (40_cipher.md R115): the loop body 32 times from (0, (y, z)). -/
def encryptLoop (b : Block) (k : Key) : Block := ((encryptLoopBody k)^[32] (0, b)).2

/-- Block `j` of a buffer as the engine reads it (20_memory.md R61). -/
def blockAt (m : Memory) (j : Nat) : Block := ⟨m.readWord (8 * j), m.readWord (8 * j + 4)⟩

/-- The number of printable bytes among the first `n` of a buffer (41_buffer.md R142, R143), by the rule's own set. -/
def printableIn (m : Memory) (n : Nat) : Nat :=
  ((List.range n).filter (fun i =>
    (0x20 ≤ (m.readByte i).toNat && (m.readByte i).toNat ≤ 0x7E) || [0x0A, 0x0D, 0x09].contains (m.readByte i).toNat)).length

/-- The last of the `n` bytes `f 0 .. f (n - 1)` is a pad count from 1 to 8, at most `n`, and so many last bytes all equal it
(41_buffer.md R145). -/
def PadPresent (f : Nat → Byte) (n : Nat) : Prop :=
  n ≠ 0 ∧ 1 ≤ (f (n - 1)).toNat ∧ (f (n - 1)).toNat ≤ 8 ∧ (f (n - 1)).toNat ≤ n ∧
    ∀ i, n - (f (n - 1)).toNat ≤ i → i < n → f i = f (n - 1)

/-- `m` is strip_len of the `n` bytes `f 0 .. f (n - 1)` (41_buffer.md R145). -/
def IsStripLen (f : Nat → Byte) (n m : Nat) : Prop :=
  (PadPresent f n → m = n - (f (n - 1)).toNat) ∧ (¬PadPresent f n → m = n)

/-- LEN is legal for DECBUF and SEARCH: a positive multiple of 8 that fits (41_buffer.md R141, 42_search.md R171). -/
def BodyLegal (s : State) : Prop := 0 < s.len.toNat ∧ s.len.toNat % 8 = 0 ∧ s.len.toNat ≤ s.bufBytes

/-- The trial of key byte `b` on `CBUF[0..LEN)` is plausible (42_search.md R171). -/
def Passes (s : State) (b : Byte) : Prop :=
  plausible (decryptBody (expandKey b) (s.cbuf.readBytes 0 s.len.toNat)) = true

/-- The machine makes `k` steps without a fault. -/
def runs (k : Nat) (s : State) : Host.Outcome State Fault Refusal := Sys2Proof.core.run k s

end Sys2Proof.Safety
end

