-- ==== Sys2Proof/Certificates/Slice0/Obligations.lean ====
section
/-!
DEFINITION. The statements for the provers, in the order of the spec's files. "Reads as before" is said through `readByte`, the
model's read of one byte. The fields `agenda`, `answers` and `draws` are the model's own (log 1, log 3, log 4): where a statement
names them it says only that a transaction is taken off the agenda and answered. That the engine's turn comes when the agenda is
empty is the model's choice (log 1).
-/

open Sys2Proof Sys2Proof.Machine Sys2Proof.Safety

/-- Words written out from the format and the opcode map (30_encoding.md R90, R92, R96) decode to their commands; 0x00004101 is
the word of 40_cipher.md R116's example, the illegal ones are those of 95_test_vectors.md V-E1. -/
def Obligations.SpecWordsDecodeToTheirCommands : Prop :=
  decode 0x00004101 = .command (.kexp 0x41) ∧ decode 0x0000FF01 = .command (.kexp 0xFF) ∧
  decode 0x00000001 = .command (.kexp 0x00) ∧ decode 0x00000002 = .command .decb ∧
  decode 0x00000003 = .command .decbuf ∧ decode 0x00000004 = .command .score ∧
  decode 0x00000005 = .command .strip ∧ decode 0x00000006 = .command .search ∧
  decode 0x00000000 = .illegal .opcode ∧ decode 0x00000007 = .illegal .opcode ∧
  decode 0x00000102 = .illegal .immediate ∧ decode 0x00002A06 = .illegal .immediate ∧
  decode 0x00010001 = .illegal .reservedBits ∧ decode 0x80000004 = .illegal .reservedBits ∧
  decode 0xFFFFFFFF = .illegal .reservedBits

/-- Decode and encode agree: a word decodes to a command exactly when it is that command's word (30_encoding.md R90 to R96). -/
def Obligations.DecodeAgreesWithEncode : Prop :=
  ∀ i : Instr, i.wellFormed = true → ∀ w : Word, decode w = .command i ↔ w = encode i

/-- The words that decode to a command are those of 30_encoding.md R93's formula, which are its 261 listed words. -/
def Obligations.LegalWordsAreTheListedOnes : Prop :=
  (∀ w : Word, (∃ i, decode w = .command i) ↔ LegalWord w) ∧ (∀ w : Word, LegalWord w ↔ w ∈ legalWords) ∧
  legalWords.Nodup ∧ legalWords.length = 261

/-- When the latched word of a busy machine decodes to a command, the engine's turn is `exec` of it; `withFetchWord` places a word
so that the very next step runs it (log 2). -/
def Obligations.StepRunsTheLatchedCommand : Prop :=
  ∀ (s : State) (i : Instr),
    (s.status.busy = true → decode s.latch = .command i →
      (s.agenda = [] → step s = exec i s) ∧
      (∀ rest, s.agenda = .engine :: rest → step s = exec i (withAgenda s rest))) ∧
    (∀ w : Word, decode w = .command i → step (s.withFetchWord 32 w.toNat) = exec i (s.accept w))

/-- 10_state.md R22: the engine has a step exactly when BUSY = 1; it runs the latched word and ends with BUSY 0, DONE 1 and ERR,
ERRCODE the outcome. -/
def Obligations.EngineStepCompletesTheLatchedWord : Prop :=
  ∀ (s : State) (rest : List Move), (s.agenda = [] ∧ rest = []) ∨ s.agenda = .engine :: rest →
    (s.status.busy = false → step s = .next (withAgenda s rest)) ∧
    (s.status.busy = true →
      (∀ i, decode s.latch = .command i → step s = exec i (withAgenda s rest)) ∧
      (¬LegalWord s.latch →
        step s = .next { s with agenda := rest, status := failed s.status .illegalCommand }) ∧
      ∃ t, step s = .next t ∧ t.status.busy = false ∧ t.status.done = true ∧
        (t.status.err = false ∧ t.status.errcode = .none ∨ t.status.err = true ∧ t.status.errcode ≠ .none))

/-- 30_encoding.md R94: an illegal word completes with ILLEGAL_COMMAND (code 5) and changes BUSY, DONE, ERR and ERRCODE alone; the
all-zero and the all-ones words are illegal. -/
def Obligations.IllegalWordChangesStatusAlone : Prop :=
  (∀ s : State, s.agenda = [] → s.status.busy = true → ¬LegalWord s.latch →
    step s = .next { s with status :=
      { s.status with busy := false, done := true, err := true, errcode := .illegalCommand } }) ∧
  ErrorCode.illegalCommand.code = 5 ∧ ¬LegalWord 0x00000000 ∧ ¬LegalWord 0xFFFFFFFF

/-- 10_state.md R26, the places of the fields in STATUS; bits 7 and 31:12 read 0. The codes are those of 60_exceptions.md R191. -/
def Obligations.StatusWordLayout : Prop :=
  ∀ s : Status,
    s.word.getLsbD 0 = s.busy ∧ s.word.getLsbD 1 = s.done ∧ s.word.getLsbD 2 = s.err ∧ s.word.getLsbD 3 = s.plausible ∧
    s.word.getLsbD 4 = s.found ∧ s.word.getLsbD 5 = s.ovr ∧ s.word.getLsbD 6 = s.berr ∧ s.word.getLsbD 7 = false ∧
    s.word.extractLsb' 8 4 = s.errcode.code ∧ s.word.extractLsb' 12 20 = 0 ∧
    ErrorCode.none.code = 0 ∧ ErrorCode.bodyMisaligned.code = 2 ∧ ErrorCode.keyNotFound.code = 3 ∧
    ErrorCode.captureTooLarge.code = 4 ∧ ErrorCode.illegalCommand.code = 5

/-- 40_cipher.md R116: KEXP writes rep4(b) = b * 0x01010101 to KEY0..KEY3 and b to KEYBYTE, completes with success and changes
nothing else; a word with OP 0x01 is KEXP of its IMM8 exactly when RSV = 0. -/
def Obligations.KexpExpandsTheKeyByte : Prop :=
  (∀ (b : Byte) (s : State),
    let k := BitVec.ofNat 32 (b.toNat * 0x01010101)
    exec (.kexp b) s = .next { s with key := ⟨k, k, k, k⟩, keyByte := b, status := succeeded s.status } ∧
      ({ s with keyByte := b } : State).keyByteWord = BitVec.ofNat 32 b.toNat) ∧
  (∀ w : Word, w.extractLsb' 0 8 = 0x01 →
    (decode w = .command (.kexp (w.extractLsb' 8 8)) ↔ w.extractLsb' 16 16 = 0))

/-- 40_cipher.md R114 and R117: DECB puts the result of the 32-round loop into BLK0 and BLK1, completes with success and changes
nothing else; the loop's sum ends at 0; a word with OP 0x02 is DECB exactly when IMM8 and RSV are 0. -/
def Obligations.DecbDecryptsTheBlock : Prop :=
  (∀ s : State, exec .decb s = .next { s with blk := (decryptLoop s.blk s.key).2, status := succeeded s.status }) ∧
  (∀ b k, (decryptLoop b k).1 = 0) ∧
  (∀ w : Word, w.extractLsb' 0 8 = 0x02 → (decode w = .command .decb ↔ w.extractLsb' 8 8 = 0 ∧ w.extractLsb' 16 16 = 0))

/-- Decryption undoes encryption, for every block and every key (the sentence of 40_cipher.md R115); encryption undoes decryption
(it follows from R113 to R115, beyond R115's sentence); so DECB on an encrypted block restores it (R117). -/
def Obligations.DecryptionInvertsEncryption : Prop :=
  (∀ b k, decryptBlock (encryptLoop b k) k = b) ∧ (∀ b k, encryptLoop (decryptBlock b k) k = b) ∧
  (∀ (s : State) (b : Block), s.blk = encryptLoop b s.key →
    exec .decb s = .next { s with blk := b, status := succeeded s.status })

/-- 41_buffer.md R141 with R140: on a legal LEN DECBUF leaves in PBUF, block by block, the decryption of CBUF's blocks under
KEY0..KEY3, every byte from LEN on as before, and changes nothing else but STATUS; it raises CAPTURE_TOO_LARGE and
BODY_MISALIGNED as the rule says. -/
def Obligations.DecbufDecryptsTheBody : Prop :=
  ∀ s : State,
    (BodyLegal s → ∃ t, exec .decbuf s = .next t ∧
      (∀ j, 8 * j < s.len.toNat → blockAt t.pbuf j = (decryptLoop (blockAt s.cbuf j) s.key).2) ∧
      (∀ a, s.len.toNat ≤ a → t.pbuf.readByte a = s.pbuf.readByte a) ∧
      t = { s with pbuf := t.pbuf, status := succeeded s.status }) ∧
    (s.bufBytes < s.len.toNat → exec .decbuf s = .next { s with status := failed s.status .captureTooLarge }) ∧
    (s.len.toNat ≤ s.bufBytes → s.len.toNat = 0 ∨ s.len.toNat % 8 ≠ 0 →
      exec .decbuf s = .next { s with status := failed s.status .bodyMisaligned }) ∧
    (∀ w : Word, w.extractLsb' 0 8 = 0x03 → (decode w = .command .decbuf ↔ w.extractLsb' 8 8 = 0 ∧ w.extractLsb' 16 16 = 0))

/-- 41_buffer.md R140: "block `j` of the output depends only on block `j` of the input and the key". -/
def Obligations.BlocksDoNotChain : Prop :=
  ∀ s s' t t' : State, BodyLegal s → BodyLegal s' → s.key = s'.key →
    exec .decbuf s = .next t → exec .decbuf s' = .next t' →
    ∀ j, 8 * j < s.len.toNat → 8 * j < s'.len.toNat →
      (∀ i, i < 8 → s.cbuf.readByte (8 * j + i) = s'.cbuf.readByte (8 * j + i)) →
      ∀ i, i < 8 → t.pbuf.readByte (8 * j + i) = t'.pbuf.readByte (8 * j + i)

/-- 40_cipher.md R115 with 41_buffer.md R140: DECBUF recovers a body that was encrypted block by block under the key it uses. -/
def Obligations.DecbufRecoversAnEncryptedBody : Prop :=
  ∀ (s : State) (plain : Nat → Block), BodyLegal s →
    (∀ j, 8 * j < s.len.toNat → blockAt s.cbuf j = encryptLoop (plain j) s.key) →
    ∃ t, exec .decbuf s = .next t ∧ ∀ j, 8 * j < s.len.toNat → blockAt t.pbuf j = plain j

/-- 41_buffer.md R142: the printable set, by its values, has 98 members. -/
def Obligations.PrintableBytesAreThe98 : Prop :=
  (∀ c : Byte, printable c = true ↔
    0x20 ≤ c.toNat ∧ c.toNat ≤ 0x7E ∨ c.toNat = 0x0A ∨ c.toNat = 0x0D ∨ c.toNat = 0x09) ∧
  ((List.range 256).filter (fun n => printable (BitVec.ofNat 8 n))).length = 98

/-- 41_buffer.md R144 with R143: SCORE writes the number of printable bytes of PBUF[0..LEN) to COUNT and sets PLAUSIBLE exactly
when ten times it exceeds seven times LEN; when LEN does not fit it clears PLAUSIBLE and raises CAPTURE_TOO_LARGE. Nothing else
changes: FOUND, PBUF and every other register keep their values. -/
def Obligations.ScoreCountsPrintableBytes : Prop :=
  ∀ s : State,
    (s.len.toNat ≤ s.bufBytes → ∃ t, exec .score s = .next t ∧
      t.count.toNat = printableIn s.pbuf s.len.toNat ∧
      (t.status.plausible = true ↔ printableIn s.pbuf s.len.toNat * 10 > s.len.toNat * 7) ∧
      (t.status.plausible = true ↔ 7 * s.len.toNat / 10 + 1 ≤ printableIn s.pbuf s.len.toNat) ∧
      t = { s with count := t.count, status := { succeeded s.status with plausible := t.status.plausible } }) ∧
    (s.bufBytes < s.len.toNat →
      exec .score s = .next { s with status := { failed s.status .captureTooLarge with plausible := false } }) ∧
    (∀ w : Word, w.extractLsb' 0 8 = 0x04 → (decode w = .command .score ↔ w.extractLsb' 8 8 = 0 ∧ w.extractLsb' 16 16 = 0))

/-- 41_buffer.md R146 with R145: STRIP writes strip_len(PBUF[0..LEN)) to OUTLEN, never more than LEN, and changes nothing else but
STATUS; when LEN does not fit it raises CAPTURE_TOO_LARGE. -/
def Obligations.StripMeasuresThePadding : Prop :=
  ∀ s : State,
    (s.len.toNat ≤ s.bufBytes → ∃ t, exec .strip s = .next t ∧
      IsStripLen s.pbuf.readByte s.len.toNat t.outlen.toNat ∧ t.outlen.toNat ≤ s.len.toNat ∧
      t = { s with outlen := t.outlen, status := succeeded s.status }) ∧
    (s.bufBytes < s.len.toNat → exec .strip s = .next { s with status := failed s.status .captureTooLarge }) ∧
    (∀ w : Word, w.extractLsb' 0 8 = 0x05 → (decode w = .command .strip ↔ w.extractLsb' 8 8 = 0 ∧ w.extractLsb' 16 16 = 0))

/-- 41_buffer.md R147: appending `p` bytes of value `p`, for p from 1 to 8, and stripping gives the original length. -/
def Obligations.StripUndoesPadding : Prop :=
  (∀ (s : List Byte) (p : Nat), 1 ≤ p → p ≤ 8 →
    stripLen (s ++ List.replicate p (BitVec.ofNat 8 p)) = s.length) ∧
  (∀ (st : State) (s : List Byte) (p : Nat), 1 ≤ p → p ≤ 8 → st.len.toNat ≤ st.bufBytes →
    st.pbuf.readBytes 0 st.len.toNat = s ++ List.replicate p (BitVec.ofNat 8 p) →
    ∃ t, exec .strip st = .next t ∧ t.outlen.toNat = s.length)

/-- 42_search.md R171: what SEARCH leaves on Found, on Exhausted and on an error. On Exhausted the values the rule calls
unspecified are left free: the statement says nothing of them. -/
def Obligations.SearchFindsTheFirstPlausibleKey : Prop :=
  ∀ s : State,
    (∀ b : Byte, BodyLegal s → Passes s b → (∀ b' : Byte, b'.toNat < b.toNat → ¬Passes s b') →
      ∃ t, exec .search s = .next t ∧
        (∀ j, 8 * j < s.len.toNat → blockAt t.pbuf j = (decryptLoop (blockAt s.cbuf j) t.key).2) ∧
        (∀ a, s.len.toNat ≤ a → t.pbuf.readByte a = s.pbuf.readByte a) ∧
        t.key = ⟨rep4 b, rep4 b, rep4 b, rep4 b⟩ ∧ t.keyByte = b ∧
        t.count.toNat = printableIn t.pbuf s.len.toNat ∧
        IsStripLen t.pbuf.readByte s.len.toNat t.outlen.toNat ∧
        t = { s with
          pbuf := t.pbuf, key := t.key, keyByte := b, count := t.count, outlen := t.outlen
          status := { succeeded s.status with plausible := true, found := true } }) ∧
    (BodyLegal s → (∀ b, ¬Passes s b) →
      ∃ t, exec .search s = .next t ∧
        (∀ a, s.len.toNat ≤ a → t.pbuf.readByte a = s.pbuf.readByte a) ∧
        t = { s with
          pbuf := t.pbuf, key := t.key, keyByte := t.keyByte, count := t.count, draws := t.draws
          status := { failed s.status .keyNotFound with plausible := false, found := false } }) ∧
    (s.bufBytes < s.len.toNat →
      exec .search s = .next { s with
        status := { failed s.status .captureTooLarge with plausible := false, found := false } }) ∧
    (s.len.toNat ≤ s.bufBytes → s.len.toNat = 0 ∨ s.len.toNat % 8 ≠ 0 →
      exec .search s = .next { s with
        status := { failed s.status .bodyMisaligned with plausible := false, found := false } }) ∧
    (∀ w : Word, w.extractLsb' 0 8 = 0x06 → (decode w = .command .search ↔ w.extractLsb' 8 8 = 0 ∧ w.extractLsb' 16 16 = 0))

/-- 42_search.md R172: the reported key byte is the least one whose trial is plausible, and one is reported exactly when there is
one. -/
def Obligations.SearchReportsTheLeastKey : Prop :=
  ∀ s : State, BodyLegal s → ∃ t, exec .search s = .next t ∧
    (t.status.found = true ↔ ∃ b, Passes s b) ∧
    (t.status.found = true → Passes s t.keyByte ∧ ∀ b, Passes s b → t.keyByte.toNat ≤ b.toNat)

/-- SEARCH that finds `b` leaves what KEXP #b, DECBUF, SCORE and STRIP leave one after the other, and FOUND set (42_search.md R171
against 40_cipher.md R116 and 41_buffer.md R141, R144, R146). -/
def Obligations.SearchIsKexpDecbufScoreStrip : Prop :=
  ∀ (s t : State) (b : Byte), BodyLegal s → exec .search s = .next t → t.status.found = true → t.keyByte = b →
    ∃ t1 t2 t3 t4, exec (.kexp b) s = .next t1 ∧ exec .decbuf t1 = .next t2 ∧ exec .score t2 = .next t3 ∧
      exec .strip t3 = .next t4 ∧ t4.status.plausible = true ∧
      t = { t4 with status := { t4.status with found := true } }

/-- 60_exceptions.md R193: the error reported is the first in the order ILLEGAL_COMMAND, CAPTURE_TOO_LARGE, BODY_MISALIGNED,
KEY_NOT_FOUND; a LEN of 0xFFFFFFF9 is too large whatever BUF_BYTES is. -/
def Obligations.ErrorsFollowThePriority : Prop :=
  ∀ s : State, s.agenda = [] → s.status.busy = true → ∃ t, step s = .next t ∧
    (¬LegalWord s.latch → t.status.errcode = .illegalCommand) ∧
    (∀ i, decode s.latch = .command i → i ∈ [Instr.decbuf, .score, .strip, .search] → s.bufBytes < s.len.toNat →
      t.status.errcode = .captureTooLarge) ∧
    (∀ i, decode s.latch = .command i → i ∈ [Instr.decbuf, .search] → s.len.toNat ≤ s.bufBytes →
      s.len.toNat = 0 ∨ s.len.toNat % 8 ≠ 0 → t.status.errcode = .bodyMisaligned) ∧
    (decode s.latch = .command .search → BodyLegal s → (∀ b, ¬Passes s b) → t.status.errcode = .keyNotFound) ∧
    (s.len = 0xFFFFFFF9 → s.bufBytes < s.len.toNat ∧ s.len.toNat % 8 ≠ 0)

/-- A command that raises CAPTURE_TOO_LARGE or BODY_MISALIGNED leaves the state as it was, changed by the writes of R190 alone:
STATUS, with PLAUSIBLE cleared by SCORE and SEARCH and FOUND by SEARCH (60_exceptions.md R194 for two of its four errors;
ILLEGAL_COMMAND is in `IllegalWordChangesStatusAlone`, KEY_NOT_FOUND in `SearchFindsTheFirstPlausibleKey`). -/
def Obligations.EarlyErrorsArePrecise : Prop :=
  ∀ (i : Instr) (s t : State), exec i s = .next t →
    t.status.errcode = .captureTooLarge ∨ t.status.errcode = .bodyMisaligned →
    t = { s with status :=
      { failed s.status t.status.errcode with
        plausible := s.status.plausible && !(decide (i = .score) || decide (i = .search))
        found := s.status.found && !decide (i = .search) } }

/-- Which commands write which state (10_state.md R28 to R34, R40; 92_eei_decisions.md D35): no command writes LEN, the port
addresses, LATCH, CBUF, OVR or BERR, and every other register has the writers its rule names. -/
def Obligations.CommandsWriteOnlyTheirRegisters : Prop :=
  ∀ (i : Instr) (s : State), ∃ t, exec i s = .next t ∧
    t.cfg = s.cfg ∧ t.len = s.len ∧ t.cbIndex = s.cbIndex ∧ t.pbIndex = s.pbIndex ∧ t.latch = s.latch ∧ t.cbuf = s.cbuf ∧
    t.agenda = s.agenda ∧ t.answers = s.answers ∧ t.status.ovr = s.status.ovr ∧ t.status.berr = s.status.berr ∧
    (t.blk ≠ s.blk → i = .decb) ∧
    (t.key ≠ s.key ∨ t.keyByte ≠ s.keyByte → (∃ b, i = .kexp b) ∨ i = .search) ∧
    (t.count ≠ s.count → i = .score ∨ i = .search) ∧
    (t.outlen ≠ s.outlen → i = .strip ∨ i = .search) ∧
    (t.pbuf ≠ s.pbuf → i = .decbuf ∨ i = .search) ∧
    (t.status.plausible ≠ s.status.plausible → i = .score ∨ i = .search) ∧
    (t.status.found ≠ s.status.found → i = .search)

/-- 20_memory.md R70 over the whole machine: no engine step changes CBUF; a step that does is a host write of CB_DATA to an idle
machine, or the reset event (70_reset_and_hazards.md R220). -/
def Obligations.OnlyTheHostWritesCbuf : Prop :=
  ∀ s t : State, step s = .next t → t.cbuf ≠ s.cbuf →
    (s.status.busy = false ∧ ∃ v rest, HostWrites s 0x34 v rest) ∨ ∃ rest, s.agenda = .reset :: rest

/-- 20_memory.md R71: PBUF is written by DECBUF and SEARCH alone, and only below LEN. -/
def Obligations.CommandsWritePbufBelowLenOnly : Prop :=
  ∀ (i : Instr) (s t : State), exec i s = .next t →
    (∀ a, s.len.toNat ≤ a → t.pbuf.readByte a = s.pbuf.readByte a) ∧
    (i ≠ .decbuf → i ≠ .search → t.pbuf = s.pbuf)

/-- The invariant holds at reset (10_state.md R26, R44; 20_memory.md R60). -/
def Obligations.InvariantHoldsAtReset : Prop := Inv State.reset

/-- Every step keeps the invariant: the relations of STATUS (10_state.md R26), both buffers in canonical form with no byte past
BUF_BYTES (20_memory.md R60), OUTLEN at most BUF_BYTES, and the model's draws fresh (log 4). -/
def Obligations.StepKeepsTheInvariant : Prop := ∀ s t : State, Inv s → step s = .next t → Inv t

/-- 10_state.md R25: a write to CMD while idle latches the word, whatever it is, sets BUSY and clears DONE, ERR and ERRCODE; a
read of CMD returns 0 and has no effect. -/
def Obligations.CmdWriteAcceptsTheWord : Prop :=
  (∀ (s : State) (w : Word) (rest : List Move), s.status.busy = false → HostWrites s 0x00 w rest →
    step s = .next { s with
      agenda := rest
      latch := w
      status := { s.status with busy := true, done := false, err := false, errcode := .none }
      answers := .done :: s.answers }) ∧
  (∀ (s : State) (rest : List Move), HostReads s 0x00 rest →
    step s = .next { s with agenda := rest, answers := .data 0x00000000 :: s.answers })

/-- 10_state.md R27: a write to STATUS, busy or not, clears OVR and BERR where bits 5 and 6 are 1 and changes nothing else. -/
def Obligations.StatusWriteClearsStickyBits : Prop :=
  ∀ (s : State) (v : Word) (rest : List Move), HostWrites s 0x04 v rest →
    step s = .next { s with
      agenda := rest
      status := { s.status with
        ovr := if v.getLsbD 5 then false else s.status.ovr
        berr := if v.getLsbD 6 then false else s.status.berr }
      answers := .done :: s.answers }

/-- 10_state.md R28, R30, R31: LEN, KEY0..KEY3, BLK0 and BLK1 take every 32-bit value written while idle, each alone, and read it
back. -/
def Obligations.WrittenRegistersReadBack : Prop :=
  ∀ (s : State) (v : Word) (rest : List Move) (off : Nat) (t : State), s.status.busy = false →
    (off, t) ∈ [(0x08, { s with len := v }),
      (0x10, { s with key := { s.key with key0 := v } }), (0x14, { s with key := { s.key with key1 := v } }),
      (0x18, { s with key := { s.key with key2 := v } }), (0x1C, { s with key := { s.key with key3 := v } }),
      (0x20, { s with blk := { s.blk with y := v } }), (0x24, { s with blk := { s.blk with z := v } })] →
    HostWrites s off v (.host (.read (s.cfg.devBase + off) 4) :: rest) →
    runs 1 s = .next { t with
      agenda := .host (.read (s.cfg.devBase + off) 4) :: rest, answers := .done :: s.answers } ∧
    runs 2 s = .next { t with agenda := rest, answers := .data v :: .done :: s.answers }

/-- 10_state.md R24: what a read returns while idle, for every offset but the two data ports, and that it has no effect on T6DE
(20_memory.md R68). -/
def Obligations.IdleReadsReturnTheRegister : Prop :=
  ∀ (s : State) (rest : List Move) (off : Nat), s.status.busy = false → off % 4 = 0 → off < 256 → off ≠ 0x34 → off ≠ 0x3C →
    HostReads s off rest →
    (0x44 ≤ off → step s = .next { s with agenda := rest, answers := .data 0x00000000 :: s.answers }) ∧
    (off < 0x44 → ∃ v, step s = .next { s with agenda := rest, answers := .data v :: s.answers } ∧
      (off, v) ∈ [(0x00, 0x00000000), (0x04, s.status.word), (0x08, s.len), (0x0C, s.outlen), (0x10, s.key.key0),
        (0x14, s.key.key1), (0x18, s.key.key2), (0x1C, s.key.key3), (0x20, s.blk.y), (0x24, s.blk.z),
        (0x28, 0#24 ++ s.keyByte), (0x2C, s.count), (0x30, s.cbAddr), (0x38, s.pbAddr),
        (0x40, BitVec.ofNat 32 s.bufBytes)])

/-- 10_state.md R34, R36: CB_ADDR and PB_ADDR keep bits 31:2 of a write and read 0 in bits 1:0, in every state. -/
def Obligations.AddressRegistersAreWordAligned : Prop :=
  (∀ s : State, s.cbAddr.toNat % 4 = 0 ∧ s.pbAddr.toNat % 4 = 0) ∧
  (∀ (s : State) (v : Word) (rest : List Move), s.status.busy = false → HostWrites s 0x30 v rest →
    ∃ t, step s = .next t ∧ t.cbAddr = v &&& 0xFFFFFFFC ∧
      t = { s with agenda := rest, cbIndex := t.cbIndex, answers := .done :: s.answers }) ∧
  (∀ (s : State) (v : Word) (rest : List Move), s.status.busy = false → HostWrites s 0x38 v rest →
    ∃ t, step s = .next t ∧ t.pbAddr = v &&& 0xFFFFFFFC ∧
      t = { s with agenda := rest, pbIndex := t.pbIndex, answers := .done :: s.answers })

/-- 20_memory.md R66 (with R62): a port write while idle stores the word's four bytes at the port's address, the lowest byte
first, every other byte reading as before; outside the buffer it is dropped and sets BERR; the address advances by 4 modulo
2^32. -/
def Obligations.PortWriteStoresTheWord : Prop :=
  (∀ (s : State) (v : Word) (rest : List Move), s.status.busy = false → HostWrites s 0x34 v rest →
    ∃ t, step s = .next t ∧ t.cbAddr = s.cbAddr + 4 ∧
      (s.cbAddr.toNat + 4 ≤ s.bufBytes →
        (∀ i, i < 4 → t.cbuf.readByte (s.cbAddr.toNat + i) = v.extractLsb' (8 * i) 8) ∧
        (∀ a, a < s.cbAddr.toNat ∨ s.cbAddr.toNat + 4 ≤ a → t.cbuf.readByte a = s.cbuf.readByte a) ∧
        t = { s with agenda := rest, cbuf := t.cbuf, cbIndex := t.cbIndex, answers := .done :: s.answers }) ∧
      (s.bufBytes < s.cbAddr.toNat + 4 →
        t = { s with
          agenda := rest
          cbIndex := t.cbIndex, status := { s.status with berr := true }, answers := .done :: s.answers })) ∧
  (∀ (s : State) (v : Word) (rest : List Move), s.status.busy = false → HostWrites s 0x3C v rest →
    ∃ t, step s = .next t ∧ t.pbAddr = s.pbAddr + 4 ∧
      (s.pbAddr.toNat + 4 ≤ s.bufBytes →
        (∀ i, i < 4 → t.pbuf.readByte (s.pbAddr.toNat + i) = v.extractLsb' (8 * i) 8) ∧
        (∀ a, a < s.pbAddr.toNat ∨ s.pbAddr.toNat + 4 ≤ a → t.pbuf.readByte a = s.pbuf.readByte a) ∧
        t = { s with agenda := rest, pbuf := t.pbuf, pbIndex := t.pbIndex, answers := .done :: s.answers }) ∧
      (s.bufBytes < s.pbAddr.toNat + 4 →
        t = { s with
          agenda := rest
          pbIndex := t.pbIndex, status := { s.status with berr := true }, answers := .done :: s.answers }))

/-- 20_memory.md R67 (with 00_scope.md R12): a port read while idle returns the little-endian word at the port's address; outside
the buffer it returns 0 and sets BERR; the address advances by 4 modulo 2^32 and nothing else changes. -/
def Obligations.PortReadReturnsTheWord : Prop :=
  (∀ (s : State) (rest : List Move), s.status.busy = false → HostReads s 0x34 rest →
    ∃ t v, step s = .next t ∧ t.cbAddr = s.cbAddr + 4 ∧
      (s.cbAddr.toNat + 4 ≤ s.bufBytes →
        v.toNat = (s.cbuf.readByte s.cbAddr.toNat).toNat + (s.cbuf.readByte (s.cbAddr.toNat + 1)).toNat * 2 ^ 8 +
          (s.cbuf.readByte (s.cbAddr.toNat + 2)).toNat * 2 ^ 16 + (s.cbuf.readByte (s.cbAddr.toNat + 3)).toNat * 2 ^ 24 ∧
        t = { s with agenda := rest, cbIndex := t.cbIndex, answers := .data v :: s.answers }) ∧
      (s.bufBytes < s.cbAddr.toNat + 4 → v = 0x00000000 ∧
        t = { s with
          agenda := rest
          cbIndex := t.cbIndex, status := { s.status with berr := true }, answers := .data v :: s.answers })) ∧
  (∀ (s : State) (rest : List Move), s.status.busy = false → HostReads s 0x3C rest →
    ∃ t v, step s = .next t ∧ t.pbAddr = s.pbAddr + 4 ∧
      (s.pbAddr.toNat + 4 ≤ s.bufBytes →
        v.toNat = (s.pbuf.readByte s.pbAddr.toNat).toNat + (s.pbuf.readByte (s.pbAddr.toNat + 1)).toNat * 2 ^ 8 +
          (s.pbuf.readByte (s.pbAddr.toNat + 2)).toNat * 2 ^ 16 + (s.pbuf.readByte (s.pbAddr.toNat + 3)).toNat * 2 ^ 24 ∧
        t = { s with agenda := rest, pbIndex := t.pbIndex, answers := .data v :: s.answers }) ∧
      (s.bufBytes < s.pbAddr.toNat + 4 → v = 0x00000000 ∧
        t = { s with
          agenda := rest
          pbIndex := t.pbIndex, status := { s.status with berr := true }, answers := .data v :: s.answers }))

/-- What the host stores through CB_DATA it reads back through CB_DATA, at any address inside the buffer (20_memory.md R62, R66,
R67; the program form LOADC of 30_encoding.md R97). -/
def Obligations.StoredWordsReadBackThroughThePort : Prop :=
  ∀ (s : State) (a v : Word), s.status.busy = false → a.toNat % 4 = 0 → a.toNat + 4 ≤ s.bufBytes →
    s.agenda = [.host (.write (s.cfg.devBase + 0x30) 4 a), .host (.write (s.cfg.devBase + 0x34) 4 v),
      .host (.write (s.cfg.devBase + 0x30) 4 a), .host (.read (s.cfg.devBase + 0x34) 4)] →
    ∃ t, runs 4 s = .next t ∧ t.answers = .data v :: .done :: .done :: .done :: s.answers ∧ t.cbAddr = a + 4 ∧
      t.status = s.status

/-- 10_state.md R39: the reserved offsets read 0 and ignore writes, busy or not; writes to OUTLEN, KEYBYTE, COUNT and BUFSIZE are
ignored the same way. None of these changes T6DE's state; OVR is not set. -/
def Obligations.ReadOnlyAndReservedIgnoreWrites : Prop :=
  (∀ (s : State) (rest : List Move) (off : Nat), off % 4 = 0 → 0x44 ≤ off → off ≤ 0xFC → HostReads s off rest →
    step s = .next { s with agenda := rest, answers := .data 0x00000000 :: s.answers }) ∧
  (∀ (s : State) (v : Word) (rest : List Move) (off : Nat),
    off % 4 = 0 ∧ 0x44 ≤ off ∧ off ≤ 0xFC ∨ off ∈ [0x0C, 0x28, 0x2C, 0x40] → HostWrites s off v rest →
    step s = .next { s with agenda := rest, answers := .done :: s.answers }) ∧
  (∀ (s : State) (v : Word) (rest : List Move), v.getLsbD 5 = false → v.getLsbD 6 = false → HostWrites s 0x04 v rest →
    step s = .next { s with agenda := rest, answers := .done :: s.answers })

/-- 10_state.md R38: BUFSIZE reads BUF_BYTES, busy or not, and no step changes it; BUF_BYTES is a multiple of 8 from 8 to 2^31
(00_scope.md R7). -/
def Obligations.BufsizeIsConstant : Prop :=
  (∀ (s : State) (rest : List Move), HostReads s 0x40 rest → ∃ v, v.toNat = s.bufBytes ∧
    step s = .next { s with agenda := rest, answers := .data v :: s.answers }) ∧
  (∀ s t : State, step s = .next t → t.cfg = s.cfg ∧ t.bufBytes = s.bufBytes) ∧
  (∀ s : State, s.bufBytes % 8 = 0 ∧ 8 ≤ s.bufBytes ∧ s.bufBytes ≤ 2 ^ 31)

/-- A step faults exactly when it is an access that begins in the window and has a size other than 4 bytes or an offset that is no
multiple of 4 (20_memory.md R64); no step is refused (70_reset_and_hazards.md R227). That an access which begins outside the
window and reaches into it does not fault is the model's choice, marked unsafe (log 8). -/
def Obligations.BusErrorsAreTheMisaccesses : Prop :=
  ∀ s : State,
    (step s = .fault .busError ↔ ∃ t rest, s.agenda = .host t :: rest ∧ Misaccess s.cfg t) ∧
    ((∃ t, step s = .next t) ∨ step s = .fault .busError)

/-- An access whose address is outside DEV_BASE to DEV_BASE + 0xFF is not decoded: T6DE keeps all its state (20_memory.md R77). The
model's choice (log 8) is what the host is answered, and, marked unsafe, that an access of any size belongs to where its first
byte lies: one that begins outside and reaches into the window is not decoded either. -/
def Obligations.AddressesOutsideTheWindowDoNothing : Prop :=
  ∀ (s : State) (t : Transaction) (rest : List Move), s.agenda = .host t :: rest →
    t.address < s.cfg.devBase ∨ s.cfg.devBase + 0xFF < t.address →
    step s = .next { s with agenda := rest, answers := .unclaimed :: s.answers }

/-- 70_reset_and_hazards.md R223: a write to CMD, LEN, KEY0..3, BLK0..1, CB_ADDR, CB_DATA, PB_ADDR or PB_DATA while BUSY = 1 is
discarded and sets OVR; one to STATUS clears OVR and BERR as always and sets neither; one to a read-only register or a reserved
offset is ignored. -/
def Obligations.WritesWhileBusyAreDiscarded : Prop :=
  ∀ (s : State) (v : Word) (rest : List Move) (off : Nat), s.status.busy = true → HostWrites s off v rest →
    (off ∈ [0x00, 0x08, 0x10, 0x14, 0x18, 0x1C, 0x20, 0x24, 0x30, 0x34, 0x38, 0x3C] →
      step s = .next { s with
        agenda := rest
        status := { s.status with ovr := true }, answers := .done :: s.answers }) ∧
    (off = 0x04 → step s = .next { s with
      agenda := rest
      status := { s.status with ovr := s.status.ovr && !v.getLsbD 5, berr := s.status.berr && !v.getLsbD 6 }
      answers := .done :: s.answers }) ∧
    (off % 4 = 0 ∧ 0x44 ≤ off ∧ off ≤ 0xFC ∨ off ∈ [0x0C, 0x28, 0x2C, 0x40] →
      step s = .next { s with agenda := rest, answers := .done :: s.answers })

/-- 70_reset_and_hazards.md R224: while BUSY = 1 STATUS, BUFSIZE, CMD and the reserved offsets read as always; every other register
returns some word (free: nothing is said of it) and the read has no side effect. -/
def Obligations.ReadsWhileBusyHaveNoSideEffect : Prop :=
  ∀ (s : State) (rest : List Move) (off : Nat), s.status.busy = true → off % 4 = 0 → off < 256 → HostReads s off rest →
    (off = 0x04 → step s = .next { s with agenda := rest, answers := .data s.status.word :: s.answers }) ∧
    (off = 0x40 → step s = .next { s with agenda := rest, answers := .data (BitVec.ofNat 32 s.bufBytes) :: s.answers }) ∧
    (off = 0x00 ∨ 0x44 ≤ off → step s = .next { s with agenda := rest, answers := .data 0x00000000 :: s.answers }) ∧
    (∃ v d, step s = .next { s with agenda := rest, answers := .data v :: s.answers, draws := d })

/-- 20_memory.md R75: whatever transactions the host makes while a command is in flight, the latched word, every operand and both
buffers are as at the start; of STATUS only OVR and BERR can differ. -/
def Obligations.HostCannotChangeACommandInFlight : Prop :=
  ∀ (ts : List Transaction) (rest : List Move) (s : State), s.status.busy = true →
    s.agenda = ts.map Move.host ++ rest → (∀ t ∈ ts, ¬Misaccess s.cfg t) →
    ∃ t, runs ts.length s = .next t ∧
      t = { s with
        agenda := rest, answers := t.answers, draws := t.draws
        status := { s.status with ovr := t.status.ovr, berr := t.status.berr } }

/-- 60_exceptions.md R196: a host access never changes ERR, ERRCODE, DONE, PLAUSIBLE, FOUND or the command in flight, but for the
acceptance of a command; and the registers the host may not write (OUTLEN, KEYBYTE, COUNT) keep their values. -/
def Obligations.HostAccessesNeverTouchTheOutcome : Prop :=
  ∀ (s s' : State) (t : Transaction) (rest : List Move), s.agenda = .host t :: rest → step s = .next s' →
    s'.outlen = s.outlen ∧ s'.keyByte = s.keyByte ∧ s'.count = s.count ∧
    s'.status.plausible = s.status.plausible ∧ s'.status.found = s.status.found ∧
    (s.status.busy = true ∨ (∀ v, ¬HostWrites s 0x00 v rest) →
      s'.status.err = s.status.err ∧ s'.status.errcode = s.status.errcode ∧ s'.status.done = s.status.done ∧
      s'.status.busy = s.status.busy ∧ s'.latch = s.latch)

/-- 60_exceptions.md R196, 10_state.md R26, R27: OVR and BERR, once set, stay set until the host writes 1 to their bit of STATUS or
the machine is reset; OVR is set only by a write to a busy machine, BERR only by a port access to an idle one. -/
def Obligations.StickyBitsStayUntilCleared : Prop :=
  ∀ s t : State, step s = .next t →
    (s.status.ovr = true → t.status.ovr = false →
      (∃ v rest, HostWrites s 0x04 v rest ∧ v.getLsbD 5 = true) ∨ ∃ rest, s.agenda = .reset :: rest) ∧
    (s.status.berr = true → t.status.berr = false →
      (∃ v rest, HostWrites s 0x04 v rest ∧ v.getLsbD 6 = true) ∨ ∃ rest, s.agenda = .reset :: rest) ∧
    (s.status.ovr = false → t.status.ovr = true → s.status.busy = true ∧ ∃ off v rest, HostWrites s off v rest) ∧
    (s.status.berr = false → t.status.berr = true → s.status.busy = false ∧
      ∃ off rest, (off = 0x34 ∨ off = 0x3C) ∧ (HostReads s off rest ∨ ∃ v, HostWrites s off v rest))

/-- 10_state.md R26 over the whole machine: PLAUSIBLE changes only when a latched SCORE or SEARCH completes, FOUND only when a
latched SEARCH does, or at reset. -/
def Obligations.VerdictsChangeOnlyByScoreAndSearch : Prop :=
  ∀ s t : State, step s = .next t →
    (t.status.plausible ≠ s.status.plausible →
      (s.status.busy = true ∧ t.status.done = true ∧
        (decode s.latch = .command .score ∨ decode s.latch = .command .search)) ∨ ∃ rest, s.agenda = .reset :: rest) ∧
    (t.status.found ≠ s.status.found →
      (s.status.busy = true ∧ t.status.done = true ∧ decode s.latch = .command .search) ∨
        ∃ rest, s.agenda = .reset :: rest)

/-- 10_state.md R44: the reset state. LATCH and the bytes of CBUF and PBUF are unspecified (93 U3, U12): nothing is said of their
values; that nothing is listed in either buffer and that nothing is to come are the model's (log 2, log 5). -/
def Obligations.ResetStateIsTheTable : Prop :=
  State.reset.status.word = 0x00000000 ∧ State.reset.len = 0 ∧ State.reset.outlen = 0 ∧ State.reset.key = ⟨0, 0, 0, 0⟩ ∧
  State.reset.blk = ⟨0, 0⟩ ∧ State.reset.keyByteWord = 0 ∧ State.reset.count = 0 ∧ State.reset.cbAddr = 0 ∧
  State.reset.pbAddr = 0 ∧ State.reset.bufsize.toNat = State.reset.bufBytes ∧ State.reset.status.busy = false ∧
  State.reset.cbuf.cells = [] ∧ State.reset.pbuf.cells = [] ∧ State.reset.agenda = [] ∧ State.reset.answers = []

/-- 70_reset_and_hazards.md R220: reset, at any time, abandons a command in flight and gives every register and STATUS its reset
value; the parameters stay, and no byte written before is listed any more (its value is unspecified again). -/
def Obligations.ResetAbandonsEverything : Prop :=
  ∀ (s : State) (rest : List Move), s.agenda = .reset :: rest → ∃ t, step s = .next t ∧
    t.status = Status.zero ∧ t.len = 0 ∧ t.outlen = 0 ∧ t.key = ⟨0, 0, 0, 0⟩ ∧ t.blk = ⟨0, 0⟩ ∧ t.keyByte = 0 ∧ t.count = 0 ∧
    t.cbAddr = 0 ∧ t.pbAddr = 0 ∧ t.cfg = s.cfg ∧ t.cbuf.cells = [] ∧ t.pbuf.cells = [] ∧
    t.agenda = rest ∧ t.answers = s.answers

/-- 60_exceptions.md R203: an idle machine with nothing to come keeps all its state. -/
def Obligations.IdleMachineKeepsItsState : Prop :=
  ∀ s : State, s.status.busy = false → s.agenda = [] → step s = .next s

/-- From every state, whatever moves are to come, if none is a misaccess the machine takes them all and one step more leaves it
idle: every accepted command completes (10_state.md R23, 70_reset_and_hazards.md R227). That a busy engine moves at once on an
empty agenda is the model's choice for the weak fairness of R23 (log 1). -/
def Obligations.EveryCommandCompletes : Prop :=
  ∀ s : State, (∀ m ∈ s.agenda, Orderly s.cfg m) →
    ∃ t, runs (s.agenda.length + 1) s = .next t ∧ t.agenda = [] ∧ t.status.busy = false

/-- 70_reset_and_hazards.md R226: after an accepted CMD write, in any run without a reset, a STATUS read that returns BUSY = 0
returns DONE = 1. -/
def Obligations.BusyZeroAfterAcceptanceMeansDone : Prop :=
  ∀ (s : State) (w : Word) (rest : List Move), s.status.busy = false → HostWrites s 0x00 w rest → Move.reset ∉ rest →
    ∀ (k : Nat) (t : State) (rest' : List Move), runs (k + 1) s = .next t → HostReads t 0x04 rest' →
      ∃ v : Word, step t = .next { t with agenda := rest', answers := .data v :: t.answers } ∧
        (v.getLsbD 0 = false → v.getLsbD 1 = true)
end

