-- ==== Sys2Proof/Laws/State.lean ====
section
/-!
SUPPORT. The small laws of the state: one lemma a field for each named update of State and of Status, each by rfl.
-/

namespace Sys2Proof.Machine

section

variable (s : State) (code : ErrorCode)

@[simp] theorem State.complete_cfg : (s.complete code).cfg = s.cfg := rfl
@[simp] theorem State.complete_status : (s.complete code).status = s.status.completed code := rfl
@[simp] theorem State.complete_len : (s.complete code).len = s.len := rfl
@[simp] theorem State.complete_outlen : (s.complete code).outlen = s.outlen := rfl
@[simp] theorem State.complete_key : (s.complete code).key = s.key := rfl
@[simp] theorem State.complete_blk : (s.complete code).blk = s.blk := rfl
@[simp] theorem State.complete_keyByte : (s.complete code).keyByte = s.keyByte := rfl
@[simp] theorem State.complete_count : (s.complete code).count = s.count := rfl
@[simp] theorem State.complete_cbIndex : (s.complete code).cbIndex = s.cbIndex := rfl
@[simp] theorem State.complete_pbIndex : (s.complete code).pbIndex = s.pbIndex := rfl
@[simp] theorem State.complete_latch : (s.complete code).latch = s.latch := rfl
@[simp] theorem State.complete_cbuf : (s.complete code).cbuf = s.cbuf := rfl
@[simp] theorem State.complete_pbuf : (s.complete code).pbuf = s.pbuf := rfl
@[simp] theorem State.complete_draws : (s.complete code).draws = s.draws := rfl
@[simp] theorem State.complete_agenda : (s.complete code).agenda = s.agenda := rfl
@[simp] theorem State.complete_answers : (s.complete code).answers = s.answers := rfl
@[simp] theorem State.complete_bufBytes : (s.complete code).bufBytes = s.bufBytes := rfl

end

section

variable (s : State) (w : Word)

@[simp] theorem State.accept_cfg : (s.accept w).cfg = s.cfg := rfl
@[simp] theorem State.accept_status : (s.accept w).status = s.status.accepted := rfl
@[simp] theorem State.accept_len : (s.accept w).len = s.len := rfl
@[simp] theorem State.accept_outlen : (s.accept w).outlen = s.outlen := rfl
@[simp] theorem State.accept_key : (s.accept w).key = s.key := rfl
@[simp] theorem State.accept_blk : (s.accept w).blk = s.blk := rfl
@[simp] theorem State.accept_keyByte : (s.accept w).keyByte = s.keyByte := rfl
@[simp] theorem State.accept_count : (s.accept w).count = s.count := rfl
@[simp] theorem State.accept_cbIndex : (s.accept w).cbIndex = s.cbIndex := rfl
@[simp] theorem State.accept_pbIndex : (s.accept w).pbIndex = s.pbIndex := rfl
@[simp] theorem State.accept_latch : (s.accept w).latch = w := rfl
@[simp] theorem State.accept_cbuf : (s.accept w).cbuf = s.cbuf := rfl
@[simp] theorem State.accept_pbuf : (s.accept w).pbuf = s.pbuf := rfl
@[simp] theorem State.accept_draws : (s.accept w).draws = s.draws := rfl
@[simp] theorem State.accept_agenda : (s.accept w).agenda = s.agenda := rfl
@[simp] theorem State.accept_answers : (s.accept w).answers = s.answers := rfl
@[simp] theorem State.accept_bufBytes : (s.accept w).bufBytes = s.bufBytes := rfl

end

section

variable (s : State) (a : Answer)

@[simp] theorem State.answer_cfg : (s.answer a).cfg = s.cfg := rfl
@[simp] theorem State.answer_status : (s.answer a).status = s.status := rfl
@[simp] theorem State.answer_len : (s.answer a).len = s.len := rfl
@[simp] theorem State.answer_outlen : (s.answer a).outlen = s.outlen := rfl
@[simp] theorem State.answer_key : (s.answer a).key = s.key := rfl
@[simp] theorem State.answer_blk : (s.answer a).blk = s.blk := rfl
@[simp] theorem State.answer_keyByte : (s.answer a).keyByte = s.keyByte := rfl
@[simp] theorem State.answer_count : (s.answer a).count = s.count := rfl
@[simp] theorem State.answer_cbIndex : (s.answer a).cbIndex = s.cbIndex := rfl
@[simp] theorem State.answer_pbIndex : (s.answer a).pbIndex = s.pbIndex := rfl
@[simp] theorem State.answer_latch : (s.answer a).latch = s.latch := rfl
@[simp] theorem State.answer_cbuf : (s.answer a).cbuf = s.cbuf := rfl
@[simp] theorem State.answer_pbuf : (s.answer a).pbuf = s.pbuf := rfl
@[simp] theorem State.answer_draws : (s.answer a).draws = s.draws := rfl
@[simp] theorem State.answer_agenda : (s.answer a).agenda = s.agenda := rfl
@[simp] theorem State.answer_answers : (s.answer a).answers = a :: s.answers := rfl
@[simp] theorem State.answer_bufBytes : (s.answer a).bufBytes = s.bufBytes := rfl

end

section

variable (s : State)

@[simp] theorem State.answerFree_cfg : s.answerFree.cfg = s.cfg := rfl
@[simp] theorem State.answerFree_status : s.answerFree.status = s.status := rfl
@[simp] theorem State.answerFree_len : s.answerFree.len = s.len := rfl
@[simp] theorem State.answerFree_outlen : s.answerFree.outlen = s.outlen := rfl
@[simp] theorem State.answerFree_key : s.answerFree.key = s.key := rfl
@[simp] theorem State.answerFree_blk : s.answerFree.blk = s.blk := rfl
@[simp] theorem State.answerFree_keyByte : s.answerFree.keyByte = s.keyByte := rfl
@[simp] theorem State.answerFree_count : s.answerFree.count = s.count := rfl
@[simp] theorem State.answerFree_cbIndex : s.answerFree.cbIndex = s.cbIndex := rfl
@[simp] theorem State.answerFree_pbIndex : s.answerFree.pbIndex = s.pbIndex := rfl
@[simp] theorem State.answerFree_latch : s.answerFree.latch = s.latch := rfl
@[simp] theorem State.answerFree_cbuf : s.answerFree.cbuf = s.cbuf := rfl
@[simp] theorem State.answerFree_pbuf : s.answerFree.pbuf = s.pbuf := rfl
@[simp] theorem State.answerFree_draws : s.answerFree.draws = s.draws + 1 := rfl
@[simp] theorem State.answerFree_agenda : s.answerFree.agenda = s.agenda := rfl
@[simp] theorem State.answerFree_answers : s.answerFree.answers = .data (Config.freeWord s.draws) :: s.answers := rfl
@[simp] theorem State.answerFree_bufBytes : s.answerFree.bufBytes = s.bufBytes := rfl

end

section

variable (s : State)

@[simp] theorem State.overrun_cfg : s.overrun.cfg = s.cfg := rfl
@[simp] theorem State.overrun_status : s.overrun.status = { s.status with ovr := true } := rfl
@[simp] theorem State.overrun_len : s.overrun.len = s.len := rfl
@[simp] theorem State.overrun_outlen : s.overrun.outlen = s.outlen := rfl
@[simp] theorem State.overrun_key : s.overrun.key = s.key := rfl
@[simp] theorem State.overrun_blk : s.overrun.blk = s.blk := rfl
@[simp] theorem State.overrun_keyByte : s.overrun.keyByte = s.keyByte := rfl
@[simp] theorem State.overrun_count : s.overrun.count = s.count := rfl
@[simp] theorem State.overrun_cbIndex : s.overrun.cbIndex = s.cbIndex := rfl
@[simp] theorem State.overrun_pbIndex : s.overrun.pbIndex = s.pbIndex := rfl
@[simp] theorem State.overrun_latch : s.overrun.latch = s.latch := rfl
@[simp] theorem State.overrun_cbuf : s.overrun.cbuf = s.cbuf := rfl
@[simp] theorem State.overrun_pbuf : s.overrun.pbuf = s.pbuf := rfl
@[simp] theorem State.overrun_draws : s.overrun.draws = s.draws := rfl
@[simp] theorem State.overrun_agenda : s.overrun.agenda = s.agenda := rfl
@[simp] theorem State.overrun_answers : s.overrun.answers = s.answers := rfl
@[simp] theorem State.overrun_bufBytes : s.overrun.bufBytes = s.bufBytes := rfl

end

section

variable (s : State)

@[simp] theorem State.portError_cfg : s.portError.cfg = s.cfg := rfl
@[simp] theorem State.portError_status : s.portError.status = { s.status with berr := true } := rfl
@[simp] theorem State.portError_len : s.portError.len = s.len := rfl
@[simp] theorem State.portError_outlen : s.portError.outlen = s.outlen := rfl
@[simp] theorem State.portError_key : s.portError.key = s.key := rfl
@[simp] theorem State.portError_blk : s.portError.blk = s.blk := rfl
@[simp] theorem State.portError_keyByte : s.portError.keyByte = s.keyByte := rfl
@[simp] theorem State.portError_count : s.portError.count = s.count := rfl
@[simp] theorem State.portError_cbIndex : s.portError.cbIndex = s.cbIndex := rfl
@[simp] theorem State.portError_pbIndex : s.portError.pbIndex = s.pbIndex := rfl
@[simp] theorem State.portError_latch : s.portError.latch = s.latch := rfl
@[simp] theorem State.portError_cbuf : s.portError.cbuf = s.cbuf := rfl
@[simp] theorem State.portError_pbuf : s.portError.pbuf = s.pbuf := rfl
@[simp] theorem State.portError_draws : s.portError.draws = s.draws := rfl
@[simp] theorem State.portError_agenda : s.portError.agenda = s.agenda := rfl
@[simp] theorem State.portError_answers : s.portError.answers = s.answers := rfl
@[simp] theorem State.portError_bufBytes : s.portError.bufBytes = s.bufBytes := rfl

end

section

variable (s : State) (p : Bool)

@[simp] theorem State.withPlausible_cfg : (s.withPlausible p).cfg = s.cfg := rfl
@[simp] theorem State.withPlausible_status : (s.withPlausible p).status = { s.status with plausible := p } := rfl
@[simp] theorem State.withPlausible_len : (s.withPlausible p).len = s.len := rfl
@[simp] theorem State.withPlausible_outlen : (s.withPlausible p).outlen = s.outlen := rfl
@[simp] theorem State.withPlausible_key : (s.withPlausible p).key = s.key := rfl
@[simp] theorem State.withPlausible_blk : (s.withPlausible p).blk = s.blk := rfl
@[simp] theorem State.withPlausible_keyByte : (s.withPlausible p).keyByte = s.keyByte := rfl
@[simp] theorem State.withPlausible_count : (s.withPlausible p).count = s.count := rfl
@[simp] theorem State.withPlausible_cbIndex : (s.withPlausible p).cbIndex = s.cbIndex := rfl
@[simp] theorem State.withPlausible_pbIndex : (s.withPlausible p).pbIndex = s.pbIndex := rfl
@[simp] theorem State.withPlausible_latch : (s.withPlausible p).latch = s.latch := rfl
@[simp] theorem State.withPlausible_cbuf : (s.withPlausible p).cbuf = s.cbuf := rfl
@[simp] theorem State.withPlausible_pbuf : (s.withPlausible p).pbuf = s.pbuf := rfl
@[simp] theorem State.withPlausible_draws : (s.withPlausible p).draws = s.draws := rfl
@[simp] theorem State.withPlausible_agenda : (s.withPlausible p).agenda = s.agenda := rfl
@[simp] theorem State.withPlausible_answers : (s.withPlausible p).answers = s.answers := rfl
@[simp] theorem State.withPlausible_bufBytes : (s.withPlausible p).bufBytes = s.bufBytes := rfl

end

section

variable (s : State) (f : Bool)

@[simp] theorem State.withVerdict_cfg : (s.withVerdict f).cfg = s.cfg := rfl
@[simp] theorem State.withVerdict_status : (s.withVerdict f).status = { s.status with plausible := f, found := f } := rfl
@[simp] theorem State.withVerdict_len : (s.withVerdict f).len = s.len := rfl
@[simp] theorem State.withVerdict_outlen : (s.withVerdict f).outlen = s.outlen := rfl
@[simp] theorem State.withVerdict_key : (s.withVerdict f).key = s.key := rfl
@[simp] theorem State.withVerdict_blk : (s.withVerdict f).blk = s.blk := rfl
@[simp] theorem State.withVerdict_keyByte : (s.withVerdict f).keyByte = s.keyByte := rfl
@[simp] theorem State.withVerdict_count : (s.withVerdict f).count = s.count := rfl
@[simp] theorem State.withVerdict_cbIndex : (s.withVerdict f).cbIndex = s.cbIndex := rfl
@[simp] theorem State.withVerdict_pbIndex : (s.withVerdict f).pbIndex = s.pbIndex := rfl
@[simp] theorem State.withVerdict_latch : (s.withVerdict f).latch = s.latch := rfl
@[simp] theorem State.withVerdict_cbuf : (s.withVerdict f).cbuf = s.cbuf := rfl
@[simp] theorem State.withVerdict_pbuf : (s.withVerdict f).pbuf = s.pbuf := rfl
@[simp] theorem State.withVerdict_draws : (s.withVerdict f).draws = s.draws := rfl
@[simp] theorem State.withVerdict_agenda : (s.withVerdict f).agenda = s.agenda := rfl
@[simp] theorem State.withVerdict_answers : (s.withVerdict f).answers = s.answers := rfl
@[simp] theorem State.withVerdict_bufBytes : (s.withVerdict f).bufBytes = s.bufBytes := rfl

end

end Sys2Proof.Machine

namespace Sys2Proof.Safety

open Sys2Proof.Machine

section

variable (s : State) (rest : List Move)

@[simp] theorem withAgenda_cfg : (withAgenda s rest).cfg = s.cfg := rfl
@[simp] theorem withAgenda_status : (withAgenda s rest).status = s.status := rfl
@[simp] theorem withAgenda_len : (withAgenda s rest).len = s.len := rfl
@[simp] theorem withAgenda_outlen : (withAgenda s rest).outlen = s.outlen := rfl
@[simp] theorem withAgenda_key : (withAgenda s rest).key = s.key := rfl
@[simp] theorem withAgenda_blk : (withAgenda s rest).blk = s.blk := rfl
@[simp] theorem withAgenda_keyByte : (withAgenda s rest).keyByte = s.keyByte := rfl
@[simp] theorem withAgenda_count : (withAgenda s rest).count = s.count := rfl
@[simp] theorem withAgenda_cbIndex : (withAgenda s rest).cbIndex = s.cbIndex := rfl
@[simp] theorem withAgenda_pbIndex : (withAgenda s rest).pbIndex = s.pbIndex := rfl
@[simp] theorem withAgenda_latch : (withAgenda s rest).latch = s.latch := rfl
@[simp] theorem withAgenda_cbuf : (withAgenda s rest).cbuf = s.cbuf := rfl
@[simp] theorem withAgenda_pbuf : (withAgenda s rest).pbuf = s.pbuf := rfl
@[simp] theorem withAgenda_draws : (withAgenda s rest).draws = s.draws := rfl
@[simp] theorem withAgenda_agenda : (withAgenda s rest).agenda = rest := rfl
@[simp] theorem withAgenda_answers : (withAgenda s rest).answers = s.answers := rfl
@[simp] theorem withAgenda_bufBytes : (withAgenda s rest).bufBytes = s.bufBytes := rfl

end

end Sys2Proof.Safety

namespace Sys2Proof.Machine

section

variable (s : Status)

@[simp] theorem Status.accepted_busy : (s.accepted).busy = true := rfl
@[simp] theorem Status.accepted_done : (s.accepted).done = false := rfl
@[simp] theorem Status.accepted_err : (s.accepted).err = false := rfl
@[simp] theorem Status.accepted_plausible : (s.accepted).plausible = s.plausible := rfl
@[simp] theorem Status.accepted_found : (s.accepted).found = s.found := rfl
@[simp] theorem Status.accepted_ovr : (s.accepted).ovr = s.ovr := rfl
@[simp] theorem Status.accepted_berr : (s.accepted).berr = s.berr := rfl
@[simp] theorem Status.accepted_errcode : (s.accepted).errcode = .none := rfl

end

section

variable (s : Status) (code : ErrorCode)

@[simp] theorem Status.completed_busy : (s.completed code).busy = false := rfl
@[simp] theorem Status.completed_done : (s.completed code).done = true := rfl
@[simp] theorem Status.completed_err : (s.completed code).err = decide (code ≠ .none) := rfl
@[simp] theorem Status.completed_plausible : (s.completed code).plausible = s.plausible := rfl
@[simp] theorem Status.completed_found : (s.completed code).found = s.found := rfl
@[simp] theorem Status.completed_ovr : (s.completed code).ovr = s.ovr := rfl
@[simp] theorem Status.completed_berr : (s.completed code).berr = s.berr := rfl
@[simp] theorem Status.completed_errcode : (s.completed code).errcode = code := rfl

end

section

variable (s : Status) (v : Word)

@[simp] theorem Status.clearedBy_busy : (s.clearedBy v).busy = s.busy := rfl
@[simp] theorem Status.clearedBy_done : (s.clearedBy v).done = s.done := rfl
@[simp] theorem Status.clearedBy_err : (s.clearedBy v).err = s.err := rfl
@[simp] theorem Status.clearedBy_plausible : (s.clearedBy v).plausible = s.plausible := rfl
@[simp] theorem Status.clearedBy_found : (s.clearedBy v).found = s.found := rfl
@[simp] theorem Status.clearedBy_ovr : (s.clearedBy v).ovr = (s.ovr && !v.getLsbD 5) := rfl
@[simp] theorem Status.clearedBy_berr : (s.clearedBy v).berr = (s.berr && !v.getLsbD 6) := rfl
@[simp] theorem Status.clearedBy_errcode : (s.clearedBy v).errcode = s.errcode := rfl

end

/-- BUF_BYTES depends on the parameters alone. -/
theorem State.bufBytes_eq (s : State) : s.bufBytes = s.cfg.bufBytes := rfl

/-- R7's bounds on BUF_BYTES, as natural numbers. -/
theorem bufBytes_bounds (c : Config) : 8 ≤ c.bufBytes ∧ c.bufBytes ≤ 2 ^ 31 ∧ c.bufBytes % 8 = 0 := by
  have h := c.extraBlocks.isLt
  unfold Config.bufBytes
  omega

/-- Completion without an error (10_state.md R22). -/
theorem Status.completed_none (s : Status) : s.completed .none = Safety.succeeded s := rfl

/-- Completion with an error (10_state.md R22). -/
theorem Status.completed_error (s : Status) (code : ErrorCode) (h : code ≠ .none) :
    s.completed code = Safety.failed s code := by
  simp [Status.completed, Safety.failed, h]

/-- Completion keeps the relations of 10_state.md R26. -/
theorem Status.completed_consistent (s : Status) (code : ErrorCode) : Safety.StatusConsistent (s.completed code) := by
  simp [Safety.StatusConsistent]

/-- Acceptance keeps the relations of 10_state.md R26. -/
theorem Status.accepted_consistent (s : Status) : Safety.StatusConsistent s.accepted := by
  simp [Safety.StatusConsistent]

end Sys2Proof.Machine
end

