-- ==== Sys2Proof/Laws/Memory.lean ====
section
/-!
SUPPORT. The laws of the buffers: what a read sees after a write, words as their bytes, and the canonical form kept by every
operation.
-/

namespace Sys2Proof.Machine

/-- Reading a cell after one was put. -/
theorem findCell_putCell (cells : List Host.Cell) (a b : Nat) (v : Byte) :
    findCell (putCell cells a v) b = if b = a then some v else findCell cells b := by
  induction cells with
  | nil => simp [putCell, findCell]
  | cons cell rest ih =>
    obtain ⟨c, w⟩ := cell
    by_cases h1 : a < c
    · simp [putCell, findCell, h1]
    · by_cases h2 : a = c
      · subst h2
        by_cases hb : b = a <;> simp [putCell, findCell, hb]
      · by_cases hc : b = c
        · subst hc
          simp [putCell, findCell, h1, h2, Ne.symm h2]
        · simp [putCell, findCell, h1, h2, hc, ih]

/-- Putting a cell keeps the addresses strictly rising. -/
theorem risingFrom_putCell (cells : List Host.Cell) (lo a : Nat) (v : Byte) (hlo : lo ≤ a)
    (h : risingFrom lo cells = true) : risingFrom lo (putCell cells a v) = true := by
  induction cells generalizing lo with
  | nil => simp [putCell, risingFrom, hlo]
  | cons cell rest ih =>
    obtain ⟨c, w⟩ := cell
    simp only [risingFrom, Bool.and_eq_true, decide_eq_true_eq] at h
    by_cases h1 : a < c
    · simp [putCell, h1, risingFrom, hlo, h.2]
    · by_cases h2 : a = c
      · subst h2
        simp [putCell, risingFrom, hlo, h.2]
      · simp [putCell, h1, h2, risingFrom, h.1]
        exact ih (c + 1) (by omega) h.2

/-- Putting a cell below `n` keeps every address below `n`. -/
theorem within_putCell (cells : List Host.Cell) (n a : Nat) (v : Byte) (ha : a < n)
    (h : cells.all (fun cell => cell.1 < n) = true) : (putCell cells a v).all (fun cell => cell.1 < n) = true := by
  induction cells with
  | nil => simp [putCell, ha]
  | cons cell rest ih =>
    obtain ⟨c, w⟩ := cell
    simp only [List.all_cons, Bool.and_eq_true] at h
    have hr := ih h.2
    unfold putCell
    split
    · simp only [List.all_cons, Bool.and_eq_true]
      exact ⟨by simp [ha], h.1, h.2⟩
    · split
      · simp only [List.all_cons, Bool.and_eq_true]
        exact ⟨by simp [ha], h.2⟩
      · simp only [List.all_cons, Bool.and_eq_true]
        exact ⟨h.1, hr⟩

namespace Memory

variable (m : Memory)

@[simp] theorem writeByte_epoch (a : Nat) (v : Byte) : (m.writeByte a v).epoch = m.epoch := rfl

/-- What a byte reads as after a byte was written. -/
theorem readByte_writeByte (a b : Nat) (v : Byte) :
    (m.writeByte a v).readByte b = if b = a then v else m.readByte b := by
  by_cases h : b = a <;> simp [readByte, writeByte, findCell_putCell, unwritten, h]

@[simp] theorem writeBytes_epoch (off : Nat) (bytes : List Byte) : (m.writeBytes off bytes).epoch = m.epoch := by
  induction bytes generalizing m off with
  | nil => rfl
  | cons v rest ih => simp [writeBytes, ih]

/-- What a byte reads as after bytes were written: the byte written there, or what it read as before. -/
theorem readByte_writeBytes (off : Nat) (bytes : List Byte) (a : Nat) :
    (m.writeBytes off bytes).readByte a =
      if h : off ≤ a ∧ a - off < bytes.length then bytes[a - off]'h.2 else m.readByte a := by
  induction bytes generalizing m off with
  | nil => simp [writeBytes]
  | cons v rest ih =>
    simp only [writeBytes, ih, readByte_writeByte]
    by_cases h1 : a = off
    · subst h1
      simp
    · by_cases h2 : off + 1 ≤ a ∧ a - (off + 1) < rest.length
      · have h3 : off ≤ a ∧ a - off < (v :: rest).length := by simp only [List.length_cons]; omega
        rw [dif_pos h2, dif_pos h3]
        have h4 : a - off = (a - (off + 1)) + 1 := by omega
        simp [h4]
      · have h3 : ¬(off ≤ a ∧ a - off < (v :: rest).length) := by simp only [List.length_cons]; omega
        rw [dif_neg h2, dif_neg h3]
        simp [h1]

/-- A byte outside the written ones reads as before. -/
theorem readByte_writeBytes_outside (off : Nat) (bytes : List Byte) (a : Nat) (h : a < off ∨ off + bytes.length ≤ a) :
    (m.writeBytes off bytes).readByte a = m.readByte a := by
  rw [readByte_writeBytes, dif_neg]
  omega

@[simp] theorem readBytes_length (off n : Nat) : (m.readBytes off n).length = n := by
  induction n generalizing off with
  | zero => rfl
  | succ n ih => simp [readBytes, ih]

/-- The bytes of a range, one by one. -/
@[simp] theorem readBytes_getElem (off n i : Nat) (h : i < (m.readBytes off n).length) :
    (m.readBytes off n)[i] = m.readByte (off + i) := by
  induction n generalizing off i with
  | zero => simp at h
  | succ n ih =>
    cases i with
    | zero => simp [readBytes]
    | succ i =>
      simp only [readBytes, List.getElem_cons_succ]
      rw [ih]
      congr 1
      omega

/-- Two ranges that agree byte for byte are the same list. -/
theorem readBytes_congr (m' : Memory) (off n : Nat) (h : ∀ a, off ≤ a → a < off + n → m.readByte a = m'.readByte a) :
    m.readBytes off n = m'.readBytes off n := by
  apply List.ext_getElem <;> simp
  intro i h1
  exact h _ (by omega) (by omega)

/-- Reading back the whole range just written gives the bytes written. -/
theorem readBytes_writeBytes (off : Nat) (bytes : List Byte) :
    (m.writeBytes off bytes).readBytes off bytes.length = bytes := by
  apply List.ext_getElem
  · simp
  · intro i h1 h2
    simp [readByte_writeBytes, h2]

/-- A written byte keeps the canonical form. -/
theorem wf_writeByte (a : Nat) (v : Byte) (h : m.wf = true) : (m.writeByte a v).wf = true :=
  risingFrom_putCell m.cells 0 a v (Nat.zero_le a) h

/-- Written bytes keep the canonical form. -/
theorem wf_writeBytes (off : Nat) (bytes : List Byte) (h : m.wf = true) : (m.writeBytes off bytes).wf = true := by
  induction bytes generalizing m off with
  | nil => exact h
  | cons v rest ih => exact ih _ _ (wf_writeByte m off v h)

/-- A written word keeps the canonical form. -/
theorem wf_writeWord (a : Nat) (v : Word) (h : m.wf = true) : (m.writeWord a v).wf = true :=
  wf_writeBytes m a _ h

/-- Bytes written below `n` keep the listed addresses below `n`. -/
theorem within_writeBytes (off n : Nat) (bytes : List Byte) (hn : off + bytes.length ≤ n) (h : m.within n = true) :
    (m.writeBytes off bytes).within n = true := by
  induction bytes generalizing m off with
  | nil => exact h
  | cons v rest ih =>
    simp only [List.length_cons] at hn
    exact ih _ _ (by omega) (within_putCell m.cells n off v (by omega) h)

/-- Bytes written below BUF_BYTES keep a buffer in order. -/
theorem bufferOk_writeBytes (n off : Nat) (bytes : List Byte) (hn : off + bytes.length ≤ n)
    (h : Safety.BufferOk n m) : Safety.BufferOk n (m.writeBytes off bytes) :=
  ⟨wf_writeBytes m off bytes h.1, within_writeBytes m off n bytes hn h.2⟩

end Memory

@[simp] theorem bytesOfWord_length (v : Word) : (bytesOfWord v).length = 4 := rfl

/-- The bits of a word made of bytes. -/
theorem wordOfBytes_getLsbD (b0 b1 b2 b3 : Byte) (i : Nat) :
    (wordOfBytes b0 b1 b2 b3).getLsbD i =
      if i < 8 then b0.getLsbD i else if i < 16 then b1.getLsbD (i - 8) else if i < 24 then b2.getLsbD (i - 16)
      else b3.getLsbD (i - 24) := by
  show (((b3 ++ b2 : BitVec (8 + 8)) ++ b1 : BitVec (8 + 8 + 8)) ++ b0 : BitVec (8 + 8 + 8 + 8)).getLsbD i = _
  rw [BitVec.getLsbD_append, BitVec.getLsbD_append, BitVec.getLsbD_append]
  have e1 : i - 8 - 8 = i - 16 := by omega
  have e2 : i - 8 - 8 - 8 = i - 24 := by omega
  rw [e1, show i - 16 - 8 = i - 24 by omega]
  by_cases h0 : i < 8
  · simp [h0]
  · by_cases h1 : i < 16
    · simp [h0, h1, show i - 8 < 8 by omega]
    · by_cases h2 : i < 24
      · simp [h0, h1, h2, show ¬ i - 8 < 8 by omega, show i - 16 < 8 by omega]
      · simp [h0, h1, h2, show ¬ i - 8 < 8 by omega, show ¬ i - 16 < 8 by omega]

/-- The value of a word made of bytes, the first the least significant (00_scope.md R12). -/
theorem wordOfBytes_toNat (b0 b1 b2 b3 : Byte) :
    (wordOfBytes b0 b1 b2 b3).toNat = b0.toNat + b1.toNat * 2 ^ 8 + b2.toNat * 2 ^ 16 + b3.toNat * 2 ^ 24 := by
  show (((b3 ++ b2 : BitVec (8 + 8)) ++ b1 : BitVec (8 + 8 + 8)) ++ b0 : BitVec (8 + 8 + 8 + 8)).toNat = _
  have h : ∀ x y : Nat, y < 2 ^ 8 → x <<< 8 ||| y = x * 2 ^ 8 + y := by
    intro x y hy
    rw [← Nat.shiftLeft_add_eq_or_of_lt hy, Nat.shiftLeft_eq]
  rw [BitVec.toNat_append, BitVec.toNat_append, BitVec.toNat_append, h _ _ b0.isLt, h _ _ b1.isLt, h _ _ b2.isLt]
  omega

/-- A word is the four bytes it was made of. -/
@[simp] theorem bytesOfWord_wordOfBytes (b0 b1 b2 b3 : Byte) : bytesOfWord (wordOfBytes b0 b1 b2 b3) = [b0, b1, b2, b3] := by
  simp only [bytesOfWord, List.cons.injEq, and_true]
  refine ⟨?_, ?_, ?_, ?_⟩ <;> apply BitVec.eq_of_getLsbD_eq <;> intro i hi <;>
    rw [BitVec.getLsbD_extractLsb', wordOfBytes_getLsbD]
  · simp [hi]
  · simp [hi, show 8 + i < 16 by omega]
  · simp [hi, show 16 + i < 24 by omega, show ¬ 16 + i < 8 by omega, show ¬ 16 + i < 16 by omega]
  · simp [hi, show ¬ 24 + i < 8 by omega, show ¬ 24 + i < 16 by omega, show ¬ 24 + i < 24 by omega]

/-- A word is made of its four bytes. -/
@[simp] theorem wordOfBytes_bytes (v : Word) :
    wordOfBytes (v.extractLsb' 0 8) (v.extractLsb' 8 8) (v.extractLsb' 16 8) (v.extractLsb' 24 8) = v := by
  apply BitVec.eq_of_getLsbD_eq
  intro i hi
  rw [wordOfBytes_getLsbD]
  simp only [BitVec.getLsbD_extractLsb']
  by_cases h0 : i < 8
  · simp [h0]
  · by_cases h1 : i < 16
    · simp [h0, h1, show i - 8 < 8 by omega, show 8 + (i - 8) = i by omega]
    · by_cases h2 : i < 24
      · simp [h0, h1, h2, show i - 16 < 8 by omega, show 16 + (i - 16) = i by omega]
      · simp [h0, h1, h2, show i - 24 < 8 by omega, show 24 + (i - 24) = i by omega]

namespace Memory

variable (m : Memory)

/-- Reading back a word just written at the same offset. -/
@[simp] theorem readWord_writeWord (a : Nat) (v : Word) : (m.writeWord a v).readWord a = v := by
  simp [readWord, writeWord, readByte_writeBytes, bytesOfWord]

/-- The bytes of a word just written (20_memory.md R62). -/
theorem readByte_writeWord (a b : Nat) (v : Word) :
    (m.writeWord a v).readByte b = if a ≤ b ∧ b < a + 4 then v.extractLsb' (8 * (b - a)) 8 else m.readByte b := by
  rw [writeWord, readByte_writeBytes]
  by_cases h : a ≤ b ∧ b < a + 4
  · have h' : a ≤ b ∧ b - a < (bytesOfWord v).length := by rw [bytesOfWord_length]; omega
    rw [dif_pos h', if_pos h]
    obtain ⟨k, rfl⟩ : ∃ k, b = a + k := ⟨b - a, by omega⟩
    have hk : k < 4 := by omega
    simp only [Nat.add_sub_cancel_left]
    match k, hk with
    | 0, _ => rfl
    | 1, _ => rfl
    | 2, _ => rfl
    | 3, _ => rfl
  · have h' : ¬(a ≤ b ∧ b - a < (bytesOfWord v).length) := by rw [bytesOfWord_length]; omega
    rw [dif_neg h', if_neg h]

/-- Two buffers that agree on four bytes give the same word there. -/
theorem readWord_congr (m' : Memory) (a : Nat) (h : ∀ b, a ≤ b → b < a + 4 → m.readByte b = m'.readByte b) :
    m.readWord a = m'.readWord a := by
  simp only [readWord]
  rw [h a (by omega) (by omega), h (a + 1) (by omega) (by omega), h (a + 2) (by omega) (by omega),
    h (a + 3) (by omega) (by omega)]

/-- A word write below `n` keeps a buffer in order. -/
theorem bufferOk_writeWord (n a : Nat) (v : Word) (hn : a + 4 ≤ n) (h : Safety.BufferOk n m) :
    Safety.BufferOk n (m.writeWord a v) :=
  bufferOk_writeBytes m n a _ hn h

end Memory

end Sys2Proof.Machine
end

