-- ==== Sys2Proof/Laws/Cipher.lean ====
section
/-!
SUPPORT. The laws of the cipher: the model's rounds are the spec's loops, one round of encryption is undone by one of decryption,
and what decrypt_body puts where.
-/

namespace Sys2Proof.Machine

open Sys2Proof.Safety

/-- The loop of 40_cipher.md R114 from any sum: `n` rounds, the sum lowered `n` times. -/
theorem decryptLoop_iterate (k : Key) (n : Nat) (sum : Word) (b : Block) :
    (decryptLoopBody k)^[n] (sum, b) = (sum - BitVec.ofNat 32 n * delta, decryptRounds k n sum b) := by
  induction n generalizing sum b with
  | zero => simp [decryptRounds]
  | succ n ih =>
    rw [Function.iterate_succ_apply, show decryptLoopBody k (sum, b) = (sum - delta, decryptRound k sum b) from rfl, ih]
    simp only [decryptRounds, Prod.mk.injEq, and_true]
    rw [BitVec.ofNat_add, BitVec.add_mul, BitVec.sub_sub, BitVec.add_comm delta]
    simp

/-- The loop of 40_cipher.md R115 from any sum. -/
theorem encryptLoop_iterate (k : Key) (n : Nat) (sum : Word) (b : Block) :
    ((encryptLoopBody k)^[n] (sum, b)).2 = encryptRounds k n sum b := by
  induction n generalizing sum b with
  | zero => rfl
  | succ n ih =>
    rw [Function.iterate_succ_apply,
      show encryptLoopBody k (sum, b) = (sum + delta, encryptRound k (sum + delta) b) from rfl, ih]
    rfl

/-- One round of encryption is undone by one round of decryption at the same sum. -/
theorem decryptRound_encryptRound (k : Key) (sum : Word) (b : Block) :
    decryptRound k sum (encryptRound k sum b) = b := by
  obtain ⟨y, z⟩ := b
  simp [decryptRound, encryptRound]

/-- One round of decryption is undone by one round of encryption at the same sum. -/
theorem encryptRound_decryptRound (k : Key) (sum : Word) (b : Block) :
    encryptRound k sum (decryptRound k sum b) = b := by
  obtain ⟨y, z⟩ := b
  simp [decryptRound, encryptRound]

/-- The last of `n + 1` decryption rounds, taken out. -/
theorem decryptRounds_succ_last (k : Key) (n : Nat) (sum : Word) (b : Block) :
    decryptRounds k (n + 1) sum b = decryptRound k (sum - BitVec.ofNat 32 n * delta) (decryptRounds k n sum b) := by
  induction n generalizing sum b with
  | zero => simp [decryptRounds]
  | succ n ih =>
    rw [decryptRounds, ih]
    rw [show sum - delta - BitVec.ofNat 32 n * delta = sum - BitVec.ofNat 32 (n + 1) * delta by
      rw [BitVec.ofNat_add, BitVec.add_mul, BitVec.sub_sub, BitVec.add_comm delta]; simp]
    rfl

/-- The bytes of a block, y before z, each least significant first (20_memory.md R61). -/
def blockBytes (b : Block) : List Byte := bytesOfWord b.y ++ bytesOfWord b.z

@[simp] theorem blockBytes_length (b : Block) : (blockBytes b).length = 8 := rfl

/-- Eight bytes of a buffer as the list decrypt_body takes apart. -/
theorem readBytes_block (m : Memory) (off n : Nat) :
    m.readBytes off (8 * (n + 1)) =
      m.readByte off :: m.readByte (off + 1) :: m.readByte (off + 2) :: m.readByte (off + 3) :: m.readByte (off + 4) ::
        m.readByte (off + 5) :: m.readByte (off + 6) :: m.readByte (off + 7) :: m.readBytes (off + 8) (8 * n) := by
  rw [show 8 * (n + 1) = 8 * n + 1 + 1 + 1 + 1 + 1 + 1 + 1 + 1 by omega]
  rfl

/-- decrypt_body on a range of a buffer, its first block taken out (41_buffer.md R140). -/
theorem decryptBody_readBytes_succ (k : Key) (m : Memory) (off n : Nat) :
    decryptBody k (m.readBytes off (8 * (n + 1))) =
      blockBytes (decryptBlock ⟨m.readWord off, m.readWord (off + 4)⟩ k) ++ decryptBody k (m.readBytes (off + 8) (8 * n)) := by
  rw [readBytes_block, decryptBody]
  simp only [blockBytes, List.append_assoc]
  rfl

/-- decrypt_body keeps the length (41_buffer.md R140). -/
theorem decryptBody_readBytes_length (k : Key) (m : Memory) (off n : Nat) :
    (decryptBody k (m.readBytes off (8 * n))).length = 8 * n := by
  induction n generalizing off with
  | zero => rfl
  | succ n ih =>
    rw [decryptBody_readBytes_succ, List.length_append, ih, blockBytes_length]
    omega

/-- The length of the plaintext of a body whose length is a multiple of 8. -/
theorem decryptBody_length (k : Key) (m : Memory) (n : Nat) (h : n % 8 = 0) :
    (decryptBody k (m.readBytes 0 n)).length = n := by
  obtain ⟨q, rfl⟩ : ∃ q, n = 8 * q := ⟨n / 8, by omega⟩
  exact decryptBody_readBytes_length k m 0 q

/-- Byte `i` of block `j` of decrypt_body is byte `i` of that block's own decryption (41_buffer.md R140). -/
theorem decryptBody_readBytes_getElem? (k : Key) (m : Memory) (off n j i : Nat) (hj : j < n) (hi : i < 8) :
    (decryptBody k (m.readBytes off (8 * n)))[8 * j + i]? =
      (blockBytes (decryptBlock ⟨m.readWord (off + 8 * j), m.readWord (off + 8 * j + 4)⟩ k))[i]? := by
  induction n generalizing off j with
  | zero => omega
  | succ n ih =>
    rw [decryptBody_readBytes_succ]
    cases j with
    | zero => rw [List.getElem?_append_left (by simp; omega)]; simp
    | succ j =>
      rw [List.getElem?_append_right (by simp; omega), blockBytes_length,
        show 8 * (j + 1) + i - 8 = 8 * j + i by omega, ih (off + 8) j (by omega)]
      rw [show off + 8 + 8 * j = off + 8 * (j + 1) by omega]

/-- Where the plaintext of block `j` lies after it was written to a buffer from offset 0 on. -/
theorem readByte_write_decryptBody (p : Memory) (k : Key) (m : Memory) (n j i : Nat) (hj : j < n) (hi : i < 8) :
    some ((p.writeBytes 0 (decryptBody k (m.readBytes 0 (8 * n)))).readByte (8 * j + i)) =
      (blockBytes (decryptBlock (blockAt m j) k))[i]? := by
  have hlen := decryptBody_readBytes_length k m 0 n
  have h := decryptBody_readBytes_getElem? k m 0 n j i hj hi
  rw [Nat.zero_add] at h
  rw [blockAt, ← h, Memory.readByte_writeBytes, dif_pos (by rw [hlen]; omega)]
  simp only [Nat.sub_zero]
  exact (List.getElem?_eq_getElem (by rw [hlen]; omega)).symm

/-- Block `j` of the plaintext, as the engine's words (20_memory.md R61, 41_buffer.md R140). -/
theorem blockAt_write_decryptBody (p : Memory) (k : Key) (m : Memory) (n j : Nat) (hj : j < n) :
    blockAt (p.writeBytes 0 (decryptBody k (m.readBytes 0 (8 * n)))) j = decryptBlock (blockAt m j) k := by
  have h : ∀ i, i < 8 → _ := fun i hi => readByte_write_decryptBody p k m n j i hj hi
  set q := p.writeBytes 0 (decryptBody k (m.readBytes 0 (8 * n)))
  set b := decryptBlock (blockAt m j) k
  have h0 := h 0 (by omega)
  have h1 := h 1 (by omega)
  have h2 := h 2 (by omega)
  have h3 := h 3 (by omega)
  have h4 := h 4 (by omega)
  have h5 := h 5 (by omega)
  have h6 := h 6 (by omega)
  have h7 := h 7 (by omega)
  simp only [blockBytes, bytesOfWord, List.cons_append, List.nil_append, List.getElem?_cons_zero, List.getElem?_cons_succ,
    Option.some.injEq] at h0 h1 h2 h3 h4 h5 h6 h7
  obtain ⟨by', bz⟩ := b
  simp only [blockAt, Memory.readWord, Block.mk.injEq]
  constructor
  · rw [show 8 * j = 8 * j + 0 by omega, h0, h1, h2, h3]
    exact wordOfBytes_bytes by'
  · rw [show 8 * j + 4 + 1 = 8 * j + 5 by omega, show 8 * j + 4 + 2 = 8 * j + 6 by omega,
      show 8 * j + 4 + 3 = 8 * j + 7 by omega, h4, h5, h6, h7]
    exact wordOfBytes_bytes bz

/-- Two buffers that agree byte for byte on block `j` have the same block there. -/
theorem blockAt_congr (m m' : Memory) (j : Nat) (h : ∀ i, i < 8 → m.readByte (8 * j + i) = m'.readByte (8 * j + i)) :
    blockAt m j = blockAt m' j := by
  simp only [blockAt, Block.mk.injEq]
  constructor <;> apply Memory.readWord_congr <;> intro b h1 h2
  · have := h (b - 8 * j) (by omega)
    rwa [show 8 * j + (b - 8 * j) = b by omega] at this
  · have := h (b - 8 * j) (by omega)
    rwa [show 8 * j + (b - 8 * j) = b by omega] at this

end Sys2Proof.Machine
end

