-- ==== Sys2Proof/Laws/Buffer.lean ====
section
/-!
SUPPORT. The laws of the scorer, the padding remover and the search loop: bounds, the spec's own formulas, and the first candidate
that passes.
-/

namespace Sys2Proof.Machine

open Sys2Proof.Safety

/-- count(s) is at most the length (41_buffer.md R143). -/
theorem printableCount_le (s : List Byte) : printableCount s ≤ s.length := by
  induction s with
  | nil => simp [printableCount]
  | cons c s ih =>
    simp only [printableCount, List.length_cons]
    split <;> omega

/-- count(s) is the number of printable bytes. -/
theorem printableCount_eq_countP (s : List Byte) : printableCount s = s.countP printable := by
  induction s with
  | nil => rfl
  | cons c s ih => by_cases h : printable c <;> simp [printableCount, h, ih, Nat.add_comm]

/-- The printable set of 41_buffer.md R142, as the statements write it. -/
theorem printable_eq (c : Byte) :
    printable c = ((0x20 ≤ c.toNat && c.toNat ≤ 0x7E) || [0x0A, 0x0D, 0x09].contains c.toNat) := by
  revert c
  decide +kernel

/-- The bytes of a range as a map over the offsets. -/
theorem readBytes_eq_map (m : Memory) (n : Nat) : m.readBytes 0 n = (List.range n).map m.readByte := by
  apply List.ext_getElem <;> simp

/-- count of a buffer's first bytes is the spec's number (41_buffer.md R143). -/
theorem printableCount_readBytes (m : Memory) (n : Nat) : printableCount (m.readBytes 0 n) = printableIn m n := by
  rw [printableCount_eq_countP, readBytes_eq_map, List.countP_map, List.countP_eq_length_filter, printableIn]
  congr 2
  funext i
  exact printable_eq _

/-- strip_len never lengthens (41_buffer.md R146). -/
theorem stripLen_le (s : List Byte) : stripLen s ≤ s.length := by
  unfold stripLen
  split
  · omega
  · simp only
    split <;> omega

/-- strip_len of a buffer's first bytes is the spec's length (41_buffer.md R145). -/
theorem stripLen_readBytes (m : Memory) (n : Nat) : IsStripLen m.readByte n (stripLen (m.readBytes 0 n)) := by
  cases n with
  | zero =>
    constructor
    · intro h
      exact absurd rfl h.1
    · intro
      rfl
  | succ n =>
    have hlast : (m.readBytes 0 (n + 1)).getLast? = some (m.readByte n) := by
      rw [List.getLast?_eq_getElem?, Memory.readBytes_length, List.getElem?_eq_getElem (by simp)]
      simp
    have hall : ∀ d, ((m.readBytes 0 (n + 1)).drop (n + 1 - d)).all (· == m.readByte n) = true ↔
        ∀ i, n + 1 - d ≤ i → i < n + 1 → m.readByte i = m.readByte n := by
      intro d
      rw [List.all_eq_true]
      constructor
      · intro h i h1 h2
        have := h (m.readByte i) (by
          rw [List.mem_iff_getElem]
          refine ⟨i - (n + 1 - d), by simp; omega, ?_⟩
          simp only [List.getElem_drop, Memory.readBytes_getElem, Nat.zero_add]
          congr 1
          omega)
        simpa using this
      · intro h x hx
        rw [List.mem_iff_getElem] at hx
        obtain ⟨i, hi, rfl⟩ := hx
        simp only [List.length_drop, Memory.readBytes_length] at hi
        simp only [List.getElem_drop, Memory.readBytes_getElem, Nat.zero_add, beq_iff_eq]
        exact h _ (by omega) (by omega)
    simp only [IsStripLen, stripLen, hlast, Memory.readBytes_length, hall, Nat.add_sub_cancel]
    constructor
    · intro h
      rw [if_pos ⟨h.2.1, h.2.2.1, h.2.2.2.1, h.2.2.2.2⟩]
    · intro h
      rw [if_neg]
      intro h'
      exact h ⟨by omega, h'⟩

/-- The bytes the candidates run over. -/
theorem mem_candidatesFrom (i n : Nat) (b : Byte) (h : i + n ≤ 256) :
    b ∈ candidatesFrom i n ↔ i ≤ b.toNat ∧ b.toNat < i + n := by
  induction n generalizing i with
  | zero => simp [candidatesFrom]
  | succ n ih =>
    rw [candidatesFrom, List.mem_cons, ih (i + 1) (by omega)]
    rw [show (b = BitVec.ofNat 8 i ↔ b.toNat = i) from by
      rw [← BitVec.toNat_inj, BitVec.toNat_ofNat, Nat.mod_eq_of_lt (by omega)]]
    omega

/-- The search loop finds nothing exactly when no candidate passes (42_search.md R171). -/
theorem firstPlausible_none (c : List Byte) (l : List Byte) :
    firstPlausible c l = none ↔ ∀ b ∈ l, plausible (trial c b) = false := by
  induction l with
  | nil => simp [firstPlausible]
  | cons b l ih =>
    by_cases h : plausible (trial c b) = true <;> simp [firstPlausible, h, ih]

/-- The search loop finds a candidate that passes, and every earlier one fails (42_search.md R172). -/
theorem firstPlausible_some (c : List Byte) (i n : Nat) (b : Byte) (hin : i + n ≤ 256)
    (h : firstPlausible c (candidatesFrom i n) = some b) :
    plausible (trial c b) = true ∧ i ≤ b.toNat ∧
      ∀ b' : Byte, i ≤ b'.toNat → b'.toNat < b.toNat → plausible (trial c b') = false := by
  induction n generalizing i with
  | zero => simp [candidatesFrom, firstPlausible] at h
  | succ n ih =>
    rw [candidatesFrom, firstPlausible] at h
    have hi : (BitVec.ofNat 8 i).toNat = i := by rw [BitVec.toNat_ofNat, Nat.mod_eq_of_lt (by omega)]
    split at h
    · rename_i hp
      obtain rfl := Option.some.inj h
      refine ⟨hp, by omega, fun b' h1 h2 => by omega⟩
    · rename_i hp
      obtain ⟨h1, h2, h3⟩ := ih (i + 1) (by omega) h
      refine ⟨h1, by omega, fun b' h4 h5 => ?_⟩
      by_cases h6 : b'.toNat = i
      · rw [show b' = BitVec.ofNat 8 i from BitVec.eq_of_toNat_eq (by omega)]
        simpa using hp
      · exact h3 b' (by omega) h5

/-- A key byte that passes while every lesser one fails is the one the search loop finds. -/
theorem firstPlausible_eq_some (c : List Byte) (b : Byte) (hp : plausible (trial c b) = true)
    (hl : ∀ b' : Byte, b'.toNat < b.toNat → plausible (trial c b') = false) :
    firstPlausible c (candidatesFrom 0 256) = some b := by
  cases h : firstPlausible c (candidatesFrom 0 256) with
  | none =>
    have := (firstPlausible_none c _).1 h b ((mem_candidatesFrom 0 256 b (by omega)).2 ⟨by omega, by omega⟩)
    simp [hp] at this
  | some b' =>
    obtain ⟨h1, -, h3⟩ := firstPlausible_some c 0 256 b' (by omega) h
    congr 1
    apply BitVec.eq_of_toNat_eq
    by_contra hne
    rcases Nat.lt_or_gt_of_ne hne with hlt | hgt
    · have := hl b' hlt
      simp [h1] at this
    · have := h3 b (by omega) hgt
      simp [hp] at this

@[simp] theorem freeBytes_length (d i n : Nat) : (freeBytes d i n).length = n := by
  induction n generalizing i with
  | zero => rfl
  | succ n ih => simp [freeBytes, ih]

end Sys2Proof.Machine
end

