-- ==== Sys2Proof/Laws/Commands.lean ====
section
/-!
SUPPORT. What each command can do, said once: the length checks, and one case lemma for each meaning.
-/

namespace Sys2Proof.Machine

open Sys2Proof.Safety

/-- The check of SCORE and STRIP passes exactly when LEN fits (41_buffer.md R144, R146). -/
theorem lengthError_eq_none (s : State) : s.lengthError = .none ↔ s.len.toNat ≤ s.bufBytes := by
  unfold State.lengthError State.length
  split <;> simp <;> omega

/-- What the check of SCORE and STRIP answers when LEN does not fit. -/
theorem lengthError_too_large (s : State) (h : s.bufBytes < s.len.toNat) : s.lengthError = .captureTooLarge := by
  simp [State.lengthError, State.length, h]

/-- The checks of DECBUF and SEARCH pass exactly for a legal body. -/
theorem bodyError_eq_none (s : State) : s.bodyError = .none ↔ BodyLegal s := by
  unfold State.bodyError State.length BodyLegal
  split
  · simp
    omega
  · split
    · simp
      omega
    · simp
      omega

/-- What the checks of DECBUF and SEARCH answer when LEN does not fit. -/
theorem bodyError_too_large (s : State) (h : s.bufBytes < s.len.toNat) : s.bodyError = .captureTooLarge := by
  simp [State.bodyError, State.length, h]

/-- What the checks of DECBUF and SEARCH answer when LEN fits and is no positive multiple of 8. -/
theorem bodyError_misaligned (s : State) (h : s.len.toNat ≤ s.bufBytes) (h' : s.len.toNat = 0 ∨ s.len.toNat % 8 ≠ 0) :
    s.bodyError = .bodyMisaligned := by
  simp [State.bodyError, State.length, Nat.not_lt.2 h, h']

/-- The checks of DECBUF and SEARCH answer nothing else. -/
theorem bodyError_cases (s : State) :
    BodyLegal s ∧ s.bodyError = .none ∨ s.bufBytes < s.len.toNat ∧ s.bodyError = .captureTooLarge ∨
      s.len.toNat ≤ s.bufBytes ∧ (s.len.toNat = 0 ∨ s.len.toNat % 8 ≠ 0) ∧ s.bodyError = .bodyMisaligned := by
  by_cases h1 : s.bufBytes < s.len.toNat
  · exact .inr (.inl ⟨h1, bodyError_too_large s h1⟩)
  · by_cases h2 : s.len.toNat = 0 ∨ s.len.toNat % 8 ≠ 0
    · exact .inr (.inr ⟨by omega, h2, bodyError_misaligned s (by omega) h2⟩)
    · have h : BodyLegal s := ⟨by omega, by omega, by omega⟩
      exact .inl ⟨h, (bodyError_eq_none s).2 h⟩

/-- DECBUF on a legal body. -/
theorem execDecbuf_legal (s : State) (h : BodyLegal s) :
    execDecbuf s =
      .next (State.complete { s with pbuf := s.pbuf.writeBytes 0 (decryptBody s.key (s.cbuf.readBytes 0 s.len.toNat)) }
        .none) := by
  simp only [execDecbuf, (bodyError_eq_none s).2 h]
  rfl

/-- DECBUF on an error raises it and does nothing else. -/
theorem execDecbuf_error (s : State) (h : s.bodyError ≠ .none) : execDecbuf s = .next (s.complete s.bodyError) := by
  unfold execDecbuf
  split
  · exact absurd ‹_› h
  · rfl

/-- SCORE when LEN fits. -/
theorem execScore_legal (s : State) (h : s.len.toNat ≤ s.bufBytes) :
    execScore s =
      .next (State.complete
        { s.withPlausible (plausible (s.pbuf.readBytes 0 s.len.toNat)) with
          count := BitVec.ofNat 32 (printableCount (s.pbuf.readBytes 0 s.len.toNat)) } .none) := by
  simp only [execScore, (lengthError_eq_none s).2 h]
  rfl

/-- SCORE when LEN does not fit. -/
theorem execScore_error (s : State) (h : s.bufBytes < s.len.toNat) :
    execScore s = .next ((s.withPlausible false).complete .captureTooLarge) := by
  simp only [execScore, lengthError_too_large s h]

/-- STRIP when LEN fits. -/
theorem execStrip_legal (s : State) (h : s.len.toNat ≤ s.bufBytes) :
    execStrip s =
      .next (State.complete { s with outlen := BitVec.ofNat 32 (stripLen (s.pbuf.readBytes 0 s.len.toNat)) } .none) := by
  simp only [execStrip, (lengthError_eq_none s).2 h]
  rfl

/-- STRIP when LEN does not fit. -/
theorem execStrip_error (s : State) (h : s.bufBytes < s.len.toNat) :
    execStrip s = .next (s.complete .captureTooLarge) := by
  simp only [execStrip, lengthError_too_large s h]

/-- SEARCH that finds `b`. -/
theorem execSearch_found (s : State) (b : Byte) (h : BodyLegal s) (hp : Passes s b)
    (hl : ∀ b' : Byte, b'.toNat < b.toNat → ¬Passes s b') : execSearch s = .next (s.searchFound b) := by
  have hf : firstPlausible s.cipherBody (candidatesFrom 0 256) = some b :=
    firstPlausible_eq_some _ b hp (fun b' h' => by simpa [Passes, trial, State.cipherBody, State.length] using hl b' h')
  simp only [execSearch, (bodyError_eq_none s).2 h, hf]

/-- SEARCH that finds nothing. -/
theorem execSearch_exhausted (s : State) (h : BodyLegal s) (hl : ∀ b, ¬Passes s b) :
    execSearch s = .next s.searchExhausted := by
  have hf : firstPlausible s.cipherBody (candidatesFrom 0 256) = none :=
    (firstPlausible_none _ _).2 (fun b _ => by simpa [Passes, trial, State.cipherBody, State.length] using hl b)
  simp only [execSearch, (bodyError_eq_none s).2 h, hf]

/-- SEARCH on an error clears PLAUSIBLE and FOUND, raises it and does nothing else. -/
theorem execSearch_error (s : State) (h : s.bodyError ≠ .none) :
    execSearch s = .next ((s.withVerdict false).complete s.bodyError) := by
  unfold execSearch
  split
  · exact absurd ‹_› h
  · rfl

/-- Among the candidates that pass there is a least one. -/
theorem exists_least_passing (s : State) (h : ∃ b, Passes s b) :
    ∃ b, Passes s b ∧ ∀ b' : Byte, b'.toNat < b.toNat → ¬Passes s b' := by
  cases hf : firstPlausible s.cipherBody (candidatesFrom 0 256) with
  | none =>
    obtain ⟨b, hb⟩ := h
    have := (firstPlausible_none _ _).1 hf b ((mem_candidatesFrom 0 256 b (by omega)).2 ⟨by omega, by omega⟩)
    have hb' : plausible (trial s.cipherBody b) = true := hb
    simp [hb'] at this
  | some b =>
    obtain ⟨h1, -, h3⟩ := firstPlausible_some _ 0 256 b (by omega) hf
    refine ⟨b, h1, fun b' h' hp => ?_⟩
    have := h3 b' (by omega) h'
    have hp' : plausible (trial s.cipherBody b') = true := hp
    simp [hp'] at this

/-- SEARCH does one of three things (42_search.md R170, R171). -/
theorem execSearch_cases (s : State) :
    (∃ b, BodyLegal s ∧ Passes s b ∧ (∀ b' : Byte, b'.toNat < b.toNat → ¬Passes s b') ∧
        execSearch s = .next (s.searchFound b)) ∨
      (BodyLegal s ∧ (∀ b, ¬Passes s b) ∧ execSearch s = .next s.searchExhausted) ∨
      (s.bodyError ≠ .none ∧ execSearch s = .next ((s.withVerdict false).complete s.bodyError)) := by
  by_cases h : s.bodyError = .none
  · have hb := (bodyError_eq_none s).1 h
    by_cases hp : ∃ b, Passes s b
    · obtain ⟨b, h1, h2⟩ := exists_least_passing s hp
      exact .inl ⟨b, hb, h1, h2, execSearch_found s b hb h1 h2⟩
    · have hn : ∀ b, ¬Passes s b := fun b h' => hp ⟨b, h'⟩
      exact .inr (.inl ⟨hb, hn, execSearch_exhausted s hb hn⟩)
  · exact .inr (.inr ⟨h, execSearch_error s h⟩)

end Sys2Proof.Machine
end

