-- ==== Sys2Proof/Laws/PerInstr.lean ====
section
/-!
SUPPORT. Facts about every command as syntax, one lemma a constructor: the fields of its encoded word are its own fields and pass
the checks of 30_encoding.md R93.
-/

namespace Sys2Proof.Laws.EncodedFields

/-- The word of a command carries exactly the command's fields, and they are legal. -/
def Statement (i : Instr) : Prop := fieldsOf (encode i) = i.fields ∧ i.wellFormed = true

theorem kexp (imm8 : Byte) : Statement (.kexp imm8) := by
  revert imm8
  unfold Statement
  decide +kernel

theorem decb : Statement .decb := by unfold Statement; decide

theorem decbuf : Statement .decbuf := by unfold Statement; decide

theorem score : Statement .score := by unfold Statement; decide

theorem strip : Statement .strip := by unfold Statement; decide

theorem search : Statement .search := by unfold Statement; decide

end Sys2Proof.Laws.EncodedFields
end

