-- ==== Sys2Proof/Laws/Step.lean ====
section
/-!
SUPPORT. What a step can do, said once: the next move of the agenda, and what a transaction that reaches the window does.
-/

namespace Sys2Proof.Machine

open Sys2Proof.Safety

/-- With an empty agenda the engine has the turn. -/
theorem step_nil (s : State) (h : s.agenda = []) : step s = engineTurn s := by
  simp [step, advance, h]

/-- With moves to come the first of them is made. -/
theorem step_cons (s : State) (m : Move) (rest : List Move) (h : s.agenda = m :: rest) :
    step s = runMove m (withAgenda s rest) := by
  simp [step, advance, h, withAgenda]

/-- An engine turn of an idle machine does nothing. -/
theorem engineTurn_idle (s : State) (h : s.status.busy = false) : engineTurn s = .next s := by
  simp [engineTurn, h]

/-- An engine turn of a busy machine is the engine step. -/
theorem engineTurn_busy (s : State) (h : s.status.busy = true) : engineTurn s = engineStep s := by
  simp [engineTurn, h]

/-- The offset of an address in the window. -/
theorem windowOffset_base (c : Config) (off : Nat) (h : off < 256) : windowOffset c (c.devBase + off) = some off := by
  simp [windowOffset, h]

/-- The two outcomes of looking an address up. -/
theorem windowOffset_cases (c : Config) (addr : Nat) :
    (∃ off, off < 256 ∧ addr = c.devBase + off ∧ windowOffset c addr = some off) ∨
      ((addr < c.devBase ∨ c.devBase + 256 ≤ addr) ∧ windowOffset c addr = none) := by
  by_cases h : c.devBase ≤ addr ∧ addr < c.devBase + 256
  · exact .inl ⟨addr - c.devBase, by omega, by omega, by simp [windowOffset, h]⟩
  · refine .inr ⟨by omega, ?_⟩
    rw [windowOffset, if_neg h]

/-- A host write that reaches a register. -/
theorem step_hostWrites (s : State) (off : Nat) (v : Word) (rest : List Move) (h : HostWrites s off v rest)
    (h1 : off < 256) (h2 : off % 4 = 0) : step s = .next (hostWrite (regAt off) v (withAgenda s rest)) := by
  rw [step_cons s _ rest h]
  simp [runMove, hostStep, Transaction.address, windowOffset_base _ _ h1, windowStep, accessAllowed, h2]

/-- A host read that reaches a register. -/
theorem step_hostReads (s : State) (off : Nat) (rest : List Move) (h : HostReads s off rest)
    (h1 : off < 256) (h2 : off % 4 = 0) : step s = .next (hostRead (regAt off) (withAgenda s rest)) := by
  rw [step_cons s _ rest h]
  simp [runMove, hostStep, Transaction.address, windowOffset_base _ _ h1, windowStep, accessAllowed, h2]

/-- A host step does one of four things. -/
theorem hostStep_cases (t : Transaction) (s : State) :
    (∃ off, off < 256 ∧ off % 4 = 0 ∧ t = .read (s.cfg.devBase + off) 4 ∧ hostStep t s = .next (hostRead (regAt off) s)) ∨
      (∃ off v, off < 256 ∧ off % 4 = 0 ∧ t = .write (s.cfg.devBase + off) 4 v ∧
        hostStep t s = .next (hostWrite (regAt off) v s)) ∨
      (Misaccess s.cfg t ∧ hostStep t s = .fault .busError) ∨
      ((t.address < s.cfg.devBase ∨ s.cfg.devBase + 256 ≤ t.address) ∧ hostStep t s = .next (s.answer .unclaimed)) := by
  rcases windowOffset_cases s.cfg t.address with ⟨off, h1, h2, h3⟩ | ⟨h1, h2⟩
  · by_cases ha : accessSize t = 4 ∧ off % 4 = 0
    · cases t with
      | read addr size =>
        obtain ⟨rfl, h4⟩ : size = 4 ∧ off % 4 = 0 := ha
        obtain rfl : addr = _ := h2
        exact .inl ⟨off, h1, h4, rfl, by simp [hostStep, h3, windowStep, accessAllowed, h4]⟩
      | write addr size v =>
        obtain ⟨rfl, h4⟩ : size = 4 ∧ off % 4 = 0 := ha
        obtain rfl : addr = _ := h2
        exact .inr (.inl ⟨off, v, h1, h4, rfl, by simp [hostStep, h3, windowStep, accessAllowed, h4]⟩)
    · refine .inr (.inr (.inl ⟨⟨by omega, by omega, ?_⟩, ?_⟩))
      · have : t.address - s.cfg.devBase = off := by omega
        rw [this]
        omega
      · have hn : accessAllowed off (accessSize t) = false := by simpa [accessAllowed] using ha
        cases t <;> simp only [accessSize] at hn <;> simp [hostStep, h3, windowStep, hn]
  · exact .inr (.inr (.inr ⟨h1, by simp [hostStep, h2]⟩))

/-- A host read while idle. -/
theorem hostRead_idle (r : Reg) (s : State) (h : s.status.busy = false) : hostRead r s = readIdle r s := by
  simp [hostRead, h]

/-- A host read while busy. -/
theorem hostRead_busy (r : Reg) (s : State) (h : s.status.busy = true) : hostRead r s = readBusy r s := by
  simp [hostRead, h]

/-- A host write while idle. -/
theorem hostWrite_idle (r : Reg) (v : Word) (s : State) (h : s.status.busy = false) :
    hostWrite r v s = (writeIdle r v s).answer .done := by
  simp [hostWrite, h]

/-- A host write while busy. -/
theorem hostWrite_busy (r : Reg) (v : Word) (s : State) (h : s.status.busy = true) :
    hostWrite r v s = (writeBusy r v s).answer .done := by
  simp [hostWrite, h]

/-- A host write that reaches a register of an idle machine. -/
theorem step_hostWrites_idle (s : State) (off : Nat) (v : Word) (rest : List Move) (h : HostWrites s off v rest)
    (h1 : off < 256) (h2 : off % 4 = 0) (hb : s.status.busy = false) :
    step s = .next ((writeIdle (regAt off) v (withAgenda s rest)).answer .done) := by
  rw [step_hostWrites s off v rest h h1 h2, hostWrite_idle _ _ (withAgenda s rest) hb]

/-- A host write that reaches a register of a busy machine. -/
theorem step_hostWrites_busy (s : State) (off : Nat) (v : Word) (rest : List Move) (h : HostWrites s off v rest)
    (h1 : off < 256) (h2 : off % 4 = 0) (hb : s.status.busy = true) :
    step s = .next ((writeBusy (regAt off) v (withAgenda s rest)).answer .done) := by
  rw [step_hostWrites s off v rest h h1 h2, hostWrite_busy _ _ (withAgenda s rest) hb]

/-- A host read that reaches a register of an idle machine. -/
theorem step_hostReads_idle (s : State) (off : Nat) (rest : List Move) (h : HostReads s off rest)
    (h1 : off < 256) (h2 : off % 4 = 0) (hb : s.status.busy = false) :
    step s = .next (readIdle (regAt off) (withAgenda s rest)) := by
  rw [step_hostReads s off rest h h1 h2, hostRead_idle _ (withAgenda s rest) hb]

/-- A host read that reaches a register of a busy machine. -/
theorem step_hostReads_busy (s : State) (off : Nat) (rest : List Move) (h : HostReads s off rest)
    (h1 : off < 256) (h2 : off % 4 = 0) (hb : s.status.busy = true) :
    step s = .next (readBusy (regAt off) (withAgenda s rest)) := by
  rw [step_hostReads s off rest h h1 h2, hostRead_busy _ (withAgenda s rest) hb]

/-- The offsets from 0x44 on are reserved (10_state.md R39). -/
theorem regAt_reserved (off : Nat) (h : 0x44 ≤ off) : regAt off = .reserved := by
  unfold regAt
  split <;> first | omega | rfl

/-- The offsets of the register map (10_state.md R24). -/
theorem offset_cases (off : Nat) (h : off % 4 = 0) :
    off = 0x00 ∨ off = 0x04 ∨ off = 0x08 ∨ off = 0x0C ∨ off = 0x10 ∨ off = 0x14 ∨ off = 0x18 ∨ off = 0x1C ∨ off = 0x20 ∨
      off = 0x24 ∨ off = 0x28 ∨ off = 0x2C ∨ off = 0x30 ∨ off = 0x34 ∨ off = 0x38 ∨ off = 0x3C ∨ off = 0x40 ∨
      0x44 ≤ off := by
  omega

/-- The port's offset is the address register's value (20_memory.md R65). -/
theorem addrOfIndex_toNat (x : BitVec 30) : (addrOfIndex x).toNat = portOffset x := by
  show (x ++ 0#2 : BitVec (30 + 2)).toNat = portOffset x
  rw [BitVec.toNat_append, portOffset]
  simp [Nat.shiftLeft_eq]
  omega

/-- An address register advances by 4 modulo 2^32 when its stored bits advance by 1 (10_state.md R34). -/
theorem addrOfIndex_succ (x : BitVec 30) : addrOfIndex (x + 1) = addrOfIndex x + 4 := by
  apply BitVec.eq_of_toNat_eq
  rw [BitVec.toNat_add, addrOfIndex_toNat, addrOfIndex_toNat, portOffset, portOffset, BitVec.toNat_add]
  show 4 * ((x.toNat + 1) % 2 ^ 30) = (4 * x.toNat + 4) % 2 ^ 32
  omega

/-- A write to an address register keeps bits 31:2 and drops bits 1:0 (10_state.md R34). -/
theorem addrOfIndex_indexOfAddr (v : Word) : addrOfIndex (indexOfAddr v) = v &&& 0xFFFFFFFC := by
  apply BitVec.eq_of_getLsbD_eq
  intro i hi
  have hm : (0xFFFFFFFC : Word).getLsbD i = decide (2 ≤ i) := by
    revert i
    decide
  rw [BitVec.getLsbD_and, hm]
  show ((indexOfAddr v ++ 0#2 : BitVec (30 + 2))).getLsbD i = _
  rw [BitVec.getLsbD_append, indexOfAddr, BitVec.getLsbD_extractLsb']
  by_cases h : i < 2
  · simp [h, show ¬ 2 ≤ i by omega]
  · simp [h, show 2 ≤ i by omega, show 2 + (i - 2) = i by omega, show i - 2 < 30 by omega]

/-- What a host read can change: a port's address register, BERR, and the model's own `draws` and `answers`. -/
theorem hostRead_frame (r : Reg) (s : State) :
    hostRead r s =
      { s with
        status := { s.status with berr := (hostRead r s).status.berr }
        cbIndex := (hostRead r s).cbIndex
        pbIndex := (hostRead r s).pbIndex
        draws := (hostRead r s).draws
        answers := (hostRead r s).answers } := by
  cases h : s.status.busy
  · rw [hostRead_idle r s h]
    cases r <;> simp only [readIdle, readCbData, readPbData] <;> first | rfl | (split <;> rfl)
  · rw [hostRead_busy r s h]
    cases r <;> rfl

/-- What a host write can do while BUSY: STATUS.OVR and STATUS.BERR, nothing else (70_reset_and_hazards.md R223). -/
theorem writeBusy_frame (r : Reg) (v : Word) (s : State) :
    writeBusy r v s =
      { s with status := { s.status with ovr := (writeBusy r v s).status.ovr, berr := (writeBusy r v s).status.berr } } := by
  cases r <;> rfl

/-- What a step can do: nothing, an engine step, a host read, a host write, an access outside the window, a reset, or a fault. -/
theorem step_cases (s : State) :
    ((s.agenda = [] ∨ ∃ rest, s.agenda = .engine :: rest) ∧ s.status.busy = false ∧
        step s = .next (withAgenda s s.agenda.tail)) ∨
      ((s.agenda = [] ∨ ∃ rest, s.agenda = .engine :: rest) ∧ s.status.busy = true ∧
        step s = engineStep (withAgenda s s.agenda.tail)) ∨
      (∃ off rest, off < 256 ∧ off % 4 = 0 ∧ HostReads s off rest ∧
        step s = .next (hostRead (regAt off) (withAgenda s rest))) ∨
      (∃ off v rest, off < 256 ∧ off % 4 = 0 ∧ HostWrites s off v rest ∧
        step s = .next (hostWrite (regAt off) v (withAgenda s rest))) ∨
      (∃ t rest, s.agenda = .host t :: rest ∧ Misaccess s.cfg t ∧ step s = .fault .busError) ∨
      (∃ t rest, s.agenda = .host t :: rest ∧ (t.address < s.cfg.devBase ∨ s.cfg.devBase + 256 ≤ t.address) ∧
        step s = .next ((withAgenda s rest).answer .unclaimed)) ∨
      (∃ rest, s.agenda = .reset :: rest ∧ step s = .next (resetEvent (withAgenda s rest))) := by
  cases h : s.agenda with
  | nil =>
    have hw : withAgenda s [] = s := by rw [← h]; rfl
    cases hb : s.status.busy
    · exact .inl ⟨.inl rfl, rfl, by rw [step_nil s h, engineTurn_idle s hb]; simp [hw]⟩
    · exact .inr (.inl ⟨.inl rfl, rfl, by rw [step_nil s h, engineTurn_busy s hb]; simp [hw]⟩)
  | cons m rest =>
    have hc := step_cons s m rest h
    cases m with
    | engine =>
      cases hb : s.status.busy
      · exact .inl ⟨.inr ⟨rest, rfl⟩, rfl, by rw [hc]; exact engineTurn_idle _ hb⟩
      · exact .inr (.inl ⟨.inr ⟨rest, rfl⟩, rfl, by rw [hc]; exact engineTurn_busy _ hb⟩)
    | reset => exact .inr (.inr (.inr (.inr (.inr (.inr ⟨rest, rfl, hc⟩)))))
    | host t =>
      rcases hostStep_cases t (withAgenda s rest) with ⟨off, h1, h2, h3, h4⟩ | ⟨off, v, h1, h2, h3, h4⟩ | ⟨h1, h2⟩ | ⟨h1, h2⟩
      · exact .inr (.inr (.inl ⟨off, rest, h1, h2, by rw [HostReads, h, h3]; rfl, hc.trans h4⟩))
      · exact .inr (.inr (.inr (.inl ⟨off, v, rest, h1, h2, by rw [HostWrites, h, h3]; rfl, hc.trans h4⟩)))
      · exact .inr (.inr (.inr (.inr (.inl ⟨t, rest, rfl, h1, hc.trans h2⟩))))
      · exact .inr (.inr (.inr (.inr (.inr (.inl ⟨t, rest, rfl, h1, hc.trans h2⟩)))))

/-- No steps. -/
theorem runs_zero (s : State) : runs 0 s = .next s := rfl

/-- One step, then the rest of the run. -/
theorem runs_succ_eq (k : Nat) (s : State) :
    runs (k + 1) s =
      (match step s with
      | .next s' => runs k s'
      | .fault r => .fault r
      | .refused r => .refused r) := by
  simp only [runs, Host.Core.run]
  have h : Sys2Proof.core.step s = step s := rfl
  rw [h]
  cases step s <;> rfl

/-- A run whose first step is known. -/
theorem runs_succ (k : Nat) (s t : State) (h : step s = .next t) : runs (k + 1) s = runs k t := by
  rw [runs_succ_eq, h]

/-- The first step of a run that goes through. -/
theorem runs_succ_next (k : Nat) (s t : State) (h : runs (k + 1) s = .next t) :
    ∃ u, step s = .next u ∧ runs k u = .next t := by
  cases hs : step s with
  | next u => exact ⟨u, rfl, by rw [← runs_succ k s u hs, h]⟩
  | fault r =>
    exact absurd (h.symm.trans (runs_succ_eq k s)) (by simp [hs])
  | refused r =>
    exact absurd (h.symm.trans (runs_succ_eq k s)) (by simp [hs])

end Sys2Proof.Machine
end

