-- ==== Sys2Proof/Tests/Slice0.lean ====
section
/-!
SUPPORT. The model's own tests. Expected values are the spec's: the vectors V-* of 95_test_vectors.md and the examples of the rules,
named at each test; then a witness for the hypotheses of every statement that has some.
-/

namespace Sys2Proof.Tests

open Sys2Proof.Machine Sys2Proof.Safety

/-- An idle machine with 64-byte buffers and its window at 0x300. -/
def base : State := State.resetAt ⟨7, 3⟩ 0

/-- A buffer loaded with words from offset 0 on, as LOADC does (30_encoding.md R97). -/
def loaded (ws : List Word) : Memory := (⟨[], 0⟩ : Memory).writeBytes 0 (ws.flatMap bytesOfWord)

/-- A buffer that holds bytes from offset 0 on. -/
def holding (bytes : List Byte) : Memory := (⟨[], 0⟩ : Memory).writeBytes 0 bytes

/-- The base machine whose host is about to write `v` at an offset of the window. -/
def writing (s : State) (off : Nat) (v : Word) : State := { s with agenda := [.host (.write (0x300 + off) 4 v)] }

/-- The base machine whose host is about to read at an offset of the window. -/
def reading (s : State) (off : Nat) : State := { s with agenda := [.host (.read (0x300 + off) 4)] }

/-- What a check says of the next state; false when there is none. -/
def after (o : Host.Outcome State Fault Refusal) (p : State → Bool) : Bool :=
  match o with
  | .next t => p t
  | .fault _ => false
  | .refused _ => false

/-! ## Well-formedness: an ill-formed term for each check (30_encoding.md R93) -/

theorem test_wf_refuses_reserved_bits :
    (CommandFields.mk 0x01 0x41 0x0001).rsvZero = false ∧ (CommandFields.mk 0x01 0x41 0x0001).legal = false := by decide

theorem test_wf_refuses_unassigned_opcodes :
    (CommandFields.mk 0x00 0 0).opAssigned = false ∧ (CommandFields.mk 0x07 0 0).legal = false := by decide

theorem test_wf_refuses_an_immediate_without_kexp :
    (CommandFields.mk 0x06 0x2A 0).immAllowed = false ∧ (CommandFields.mk 0x02 0x01 0).legal = false := by decide

/-! ## Decoding: words written out as RSV, IMM8, OP from 30_encoding.md R90 and R92 -/

theorem test_decode_kexp : decode (0x0000#16 ++ 0x41#8 ++ 0x01#8) = .command (.kexp 0x41) := by decide

theorem test_decode_decb : decode (0x0000#16 ++ 0x00#8 ++ 0x02#8) = .command .decb := by decide

theorem test_decode_decbuf : decode (0x0000#16 ++ 0x00#8 ++ 0x03#8) = .command .decbuf := by decide

theorem test_decode_score : decode (0x0000#16 ++ 0x00#8 ++ 0x04#8) = .command .score := by decide

theorem test_decode_strip : decode (0x0000#16 ++ 0x00#8 ++ 0x05#8) = .command .strip := by decide

theorem test_decode_search : decode (0x0000#16 ++ 0x00#8 ++ 0x06#8) = .command .search := by decide

/-- V-E1. -/
theorem test_decode_refuses : decode 0x00000000 = .illegal .opcode ∧ decode 0x00000102 = .illegal .immediate ∧
    decode 0x00010001 = .illegal .reservedBits := by decide

/-- A word of the table, and one with a bit above the 32 of the format. -/
theorem test_decodeTableWord :
    decodeTableWord 32 0x00004101 = some (.kexp 0x41) ∧ decodeTableWord 64 0x100000002 = none := by decide

/-- From reset, the very next step runs the word placed: KEXP #0x41 (V-L2). -/
theorem test_withFetchWord_runs :
    after (step (State.reset.withFetchWord 32 0x00004101)) (fun t => t.key.key3 = 0x41414141 ∧ t.status.done) = true := by
  decide

/-! ## Commands -/

/-- V-L2, 40_cipher.md R116. -/
theorem test_kexp : after (exec (.kexp 0x41) base) (fun t =>
    t.key = ⟨0x41414141, 0x41414141, 0x41414141, 0x41414141⟩ ∧ t.keyByteWord = 0x00000041) = true := by decide

/-- V-C2, the known-answer inverse. -/
theorem test_decb_known_answer :
    after (exec .decb { base with blk := ⟨0x41EA3A0A, 0x94BAA940⟩ }) (fun t => t.blk = ⟨0, 0⟩) = true := by
  decide +kernel

/-- V-C4, general key and block: four different key words. -/
theorem test_decb_general :
    after (exec .decb { base with
      key := ⟨0x00112233, 0x44556677, 0x8899AABB, 0xCCDDEEFF⟩, blk := ⟨0x01234567, 0x89ABCDEF⟩ })
      (fun t => t.blk = ⟨0xBF467633, 0x9D07A595⟩) = true := by
  decide +kernel

/-- The machine of V-B1. -/
def decbufState : State :=
  { base with
    len := 16
    key := ⟨0x2A2A2A2A, 0x2A2A2A2A, 0x2A2A2A2A, 0x2A2A2A2A⟩
    cbuf := loaded [0xDCA1E609, 0x8046A5F0, 0x56DB73A8, 0xFB64D60F] }

/-- V-B1. -/
theorem test_decbuf : after (exec .decbuf decbufState) (fun t =>
    t.pbuf.readWord 0 = 0x6C6C6568 ∧ t.pbuf.readWord 4 = 0x6F77206F ∧ t.pbuf.readWord 8 = 0x21646C72 ∧
      t.pbuf.readWord 12 = 0x00212121 ∧ t.status.word = 0x00000002) = true := by
  decide +kernel

/-- V-B3: BUF_BYTES + 8 is too large, 0 and 12 are misaligned. -/
theorem test_decbuf_errors :
    after (exec .decbuf { base with len := 72 }) (fun t => t.status.word = 0x00000406) = true ∧
    after (exec .decbuf { base with len := 0 }) (fun t => t.status.word = 0x00000206) = true ∧
    after (exec .decbuf { base with len := 12 }) (fun t => t.status.word = 0x00000206) = true := by decide

/-- V-L4: exactly 70% is not plausible. -/
theorem test_score_seventy_percent :
    after (exec .score { base with len := 10, pbuf := holding [0x41, 0x41, 0x41, 0x41, 0x41, 0x41, 0x41, 0, 0, 0] })
      (fun t => t.count = 7 ∧ t.status.word = 0x00000002) = true := by
  decide

/-- V-S1: tab, LF, CR, space and tilde are printable; 0x7F, 0x0B and 0x0C are not. -/
theorem test_score_printable_edges :
    after (exec .score { base with len := 8, pbuf := holding [0x09, 0x0A, 0x0D, 0x7F, 0x0B, 0x0C, 0x20, 0x7E] })
      (fun t => t.count = 5 ∧ t.status.plausible = false) = true := by
  decide

/-- V-P5: pad 4, but one of the last four bytes differs. -/
theorem test_strip_differing_byte :
    after (exec .strip { base with len := 8, pbuf := holding [0x61, 0x62, 0x63, 0x64, 0x01, 0x04, 0x04, 0x04] })
      (fun t => t.outlen = 8) = true := by
  decide

/-- V-P9: pad 8, a length that is not a multiple of 8. -/
theorem test_strip_pad_eight :
    after (exec .strip { base with len := 9, pbuf := holding [0x78, 8, 8, 8, 8, 8, 8, 8, 8] })
      (fun t => t.outlen = 1) = true := by
  decide

/-- The machine of V-K3. -/
def searchState : State := { base with len := 16, cbuf := loaded [0xDCA1E609, 0x8046A5F0, 0x7035A505, 0x10FEDED7] }

/-- V-K3: the first candidate that passes is 0x04, not the encryption key. -/
theorem test_search_first_passing : after (exec .search searchState) (fun t =>
    t.status.word = 0x0000001A ∧ t.keyByte = 0x04 ∧ t.key.key2 = 0x04040404 ∧ t.count = 13 ∧ t.outlen = 16 ∧
      t.pbuf.readWord 0 = 0x2176933F ∧ t.pbuf.readWord 12 = 0xF1366C95) = true := by
  decide +kernel

/-- V-K9. -/
theorem test_search_errors :
    after (exec .search { base with len := 10 }) (fun t => t.status.word = 0x00000206) = true ∧
    after (exec .search { base with len := 72 }) (fun t => t.status.word = 0x00000406) = true := by decide

/-- V-E1: the all-zero word completes with ILLEGAL_COMMAND. -/
theorem test_illegal_word : after (step (base.accept 0)) (fun t => t.status.word = 0x00000506) = true := by decide

/-! ## Host transactions -/

/-- V-H1, the word that fits: `44 33 22 11` at CBUF[B-4..B). -/
theorem test_port_write_last_word :
    after (step (writing { base with cbIndex := 15 } 0x34 0x11223344)) (fun t =>
      t.cbuf.readByte 60 = 0x44 ∧ t.cbuf.readByte 63 = 0x11 ∧ t.cbAddr = 64 ∧ t.status.berr = false) = true := by
  decide

/-- V-H1, the word that does not: dropped, BERR set, the address advances. -/
theorem test_port_write_outside :
    after (step (writing { base with cbIndex := 16 } 0x34 0x55667788)) (fun t =>
      t.cbuf = base.cbuf ∧ t.cbAddr = 68 ∧ t.status.word = 0x00000040) = true := by
  decide

/-- V-H2: a write of LEN while BUSY is discarded and sets OVR. -/
theorem test_write_while_busy :
    after (step (writing (searchState.accept 6) 0x08 8)) (fun t => t.len = 16 ∧ t.status.word = 0x00000021) = true := by
  decide

/-- 20_memory.md R64: a 16-bit access, and one at an offset that is no multiple of 4. -/
theorem test_bus_error :
    step { base with agenda := [.host (.read 0x304 2)] } = .fault .busError ∧
    step { base with agenda := [.host (.write 0x302 4 0)] } = .fault .busError := ⟨rfl, rfl⟩

/-! ## Witnesses: a state and operands that meet the hypotheses of each statement -/

theorem witness_DecodeAgreesWithEncode : (Instr.kexp 0xFF).wellFormed = true := by decide

theorem witness_StepRunsTheLatchedCommand :
    (base.accept 2).status.busy = true ∧ decode (base.accept 2).latch = .command .decb ∧ (base.accept 2).agenda = [] ∧
    ({ base.accept 2 with agenda := [.engine, .reset] } : State).agenda = .engine :: [.reset] := ⟨rfl, by decide, rfl, rfl⟩

theorem witness_EngineStepCompletesTheLatchedWord :
    ({ base with agenda := [.engine] } : State).agenda = .engine :: [] ∧ base.status.busy = false ∧
    (base.accept 0xFFFFFFFF).status.busy = true ∧ (base.accept 0xFFFFFFFF).agenda = [] ∧
    ¬LegalWord (base.accept 0xFFFFFFFF).latch ∧ decode (base.accept 6).latch = .command .search :=
  ⟨rfl, rfl, rfl, rfl, by unfold LegalWord; decide, by decide⟩

theorem witness_IllegalWordChangesStatusAlone :
    (base.accept 7).agenda = [] ∧ (base.accept 7).status.busy = true ∧ ¬LegalWord (base.accept 7).latch :=
  ⟨rfl, rfl, by unfold LegalWord; decide⟩

theorem witness_KexpExpandsTheKeyByte :
    (0x0000FF01 : Word).extractLsb' 0 8 = 0x01 ∧ (0x0000FF01 : Word).extractLsb' 16 16 = 0 ∧
    (0x00010001 : Word).extractLsb' 0 8 = 0x01 ∧ (0x00010001 : Word).extractLsb' 16 16 ≠ 0 := by decide

theorem witness_opcode_clauses :
    (0x00000102 : Word).extractLsb' 0 8 = 0x02 ∧ (0x00000003 : Word).extractLsb' 0 8 = 0x03 ∧
    (0x80000004 : Word).extractLsb' 0 8 = 0x04 ∧ (0x00000005 : Word).extractLsb' 0 8 = 0x05 ∧
    (0x00002A06 : Word).extractLsb' 0 8 = 0x06 := by decide

/-- V-L9, first row. -/
theorem witness_DecryptionInvertsEncryption :
    ({ base with blk := ⟨0x41EA3A0A, 0x94BAA940⟩ } : State).blk = encryptLoop ⟨0, 0⟩ ⟨0, 0, 0, 0⟩ := by
  decide +kernel

/-- A legal body of one block, and one that fills the buffer. -/
theorem witness_DecbufDecryptsTheBody_legal :
    BodyLegal { base with len := 8 } ∧ BodyLegal { base with len := 64 } := by
  unfold BodyLegal
  decide

theorem witness_DecbufDecryptsTheBody_errors :
    ({ base with len := 65 } : State).bufBytes < ({ base with len := 65 } : State).len.toNat ∧
    ({ base with len := 0 } : State).len.toNat ≤ ({ base with len := 0 } : State).bufBytes ∧
    ({ base with len := 0 } : State).len.toNat = 0 ∧
    ({ base with len := 63 } : State).len.toNat ≤ ({ base with len := 63 } : State).bufBytes ∧
    ({ base with len := 63 } : State).len.toNat % 8 ≠ 0 := by decide

theorem witness_decbufState_legal : BodyLegal decbufState := by
  unfold BodyLegal
  decide

/-- The first block of V-B1 alone. -/
def oneBlockState : State := { decbufState with len := 8, cbuf := loaded [0xDCA1E609, 0x8046A5F0] }

theorem witness_oneBlockState_legal : BodyLegal oneBlockState := by
  unfold BodyLegal
  decide

/-- Two machines that differ in the second block and in LEN. -/
theorem witness_BlocksDoNotChain :
    ∃ t t' : State, BodyLegal decbufState ∧ BodyLegal oneBlockState ∧ decbufState.key = oneBlockState.key ∧
      exec .decbuf decbufState = .next t ∧ exec .decbuf oneBlockState = .next t' ∧
      8 * 0 < decbufState.len.toNat ∧ 8 * 0 < oneBlockState.len.toNat ∧
      ∀ i < 8, decbufState.cbuf.readByte (8 * 0 + i) = oneBlockState.cbuf.readByte (8 * 0 + i) :=
  ⟨_, _, witness_decbufState_legal, witness_oneBlockState_legal, rfl, execDecbuf_legal _ witness_decbufState_legal,
    execDecbuf_legal _ witness_oneBlockState_legal, by decide, by decide, by decide⟩

/-- V-L9, first row, as a body of one block. -/
theorem witness_DecbufRecoversAnEncryptedBody :
    BodyLegal { base with len := 8, cbuf := loaded [0x41EA3A0A, 0x94BAA940] } ∧
    ∀ j, 8 * j < 8 → blockAt (loaded [0x41EA3A0A, 0x94BAA940]) j = encryptLoop ⟨0, 0⟩ ⟨0, 0, 0, 0⟩ := by
  refine ⟨by unfold BodyLegal; decide, fun j hj => ?_⟩
  obtain rfl : j = 0 := by omega
  decide +kernel

theorem witness_ScoreAndStrip_lengths :
    ({ base with len := 0 } : State).len.toNat ≤ ({ base with len := 0 } : State).bufBytes ∧
    ({ base with len := 64 } : State).len.toNat ≤ ({ base with len := 64 } : State).bufBytes ∧
    ({ base with len := 65 } : State).bufBytes < ({ base with len := 65 } : State).len.toNat := by decide

/-- A machine with one byte and then eight bytes of padding (V-P9). -/
theorem witness_StripUndoesPadding :
    ({ base with len := 9, pbuf := holding [0x78, 8, 8, 8, 8, 8, 8, 8, 8] } : State).len.toNat ≤ base.bufBytes ∧
    (holding [0x78, 8, 8, 8, 8, 8, 8, 8, 8]).readBytes 0 9 = [0x78] ++ List.replicate 8 (BitVec.ofNat 8 8) := by decide

theorem witness_searchState_legal : BodyLegal searchState := by
  unfold BodyLegal
  decide

/-- V-K3: 0x04 passes and no lesser key byte does. -/
theorem witness_SearchFindsTheFirstPlausibleKey_found :
    Passes searchState 0x04 ∧ ∀ b' : Byte, b'.toNat < (0x04 : Byte).toNat → ¬Passes searchState b' := by
  refine ⟨by unfold Passes; decide +kernel, fun b' h => ?_⟩
  have h' : b'.toNat < 4 := h
  have h4 : b' = 0 ∨ b' = 1 ∨ b' = 2 ∨ b' = 3 := by
    simp only [← BitVec.toNat_inj, BitVec.ofNat_eq_ofNat, BitVec.toNat_ofNat]
    omega
  rcases h4 with rfl | rfl | rfl | rfl <;> (unfold Passes; decide +kernel)

/-- A machine whose body of one block no key byte makes plausible. -/
def exhaustedState : State := { base with len := 8, cbuf := loaded [0x00000D28, 0x00000000] }

theorem witness_SearchFindsTheFirstPlausibleKey_exhausted :
    BodyLegal exhaustedState ∧ ∀ b, ¬Passes exhaustedState b := by
  refine ⟨by unfold BodyLegal; decide, ?_⟩
  unfold Passes
  decide +kernel

/-- The search of V-K3 runs, finds, and reports 0x04. -/
theorem witness_SearchIsKexpDecbufScoreStrip :
    ∃ t, BodyLegal searchState ∧ exec .search searchState = .next t ∧ t.status.found = true ∧ t.keyByte = 0x04 :=
  ⟨_, witness_searchState_legal,
    execSearch_found searchState 0x04 witness_searchState_legal witness_SearchFindsTheFirstPlausibleKey_found.1
      witness_SearchFindsTheFirstPlausibleKey_found.2, rfl, rfl⟩

/-- Each clause of the priority: an illegal word, LEN = 0xFFFFFFF9 with SCORE, LEN = 10 with SEARCH, an exhausted SEARCH. -/
theorem witness_ErrorsFollowThePriority :
    ¬LegalWord (base.accept 0).latch ∧ (base.accept 0).agenda = [] ∧ (base.accept 0).status.busy = true ∧
    decode (State.accept { base with len := 0xFFFFFFF9 } 4).latch = .command .score ∧
    base.bufBytes < (State.accept { base with len := 0xFFFFFFF9 } 4).len.toNat ∧
    decode (State.accept { base with len := 10 } 6).latch = .command .search ∧
    (State.accept { base with len := 10 } 6).len.toNat ≤ base.bufBytes ∧
    (State.accept { base with len := 10 } 6).len.toNat % 8 ≠ 0 ∧
    decode (exhaustedState.accept 6).latch = .command .search ∧ BodyLegal (exhaustedState.accept 6) :=
  ⟨by unfold LegalWord; decide, rfl, rfl, by decide, by decide, by decide, by decide, by decide, by decide,
    by unfold BodyLegal; decide⟩

theorem witness_EarlyErrorsArePrecise :
    ∃ t, exec .search { base with len := 10 } = .next t ∧ t.status.errcode = .bodyMisaligned := ⟨_, rfl, rfl⟩

theorem witness_EarlyErrorsArePrecise_too_large :
    ∃ t, exec .score { base with len := 65 } = .next t ∧ t.status.errcode = .captureTooLarge := ⟨_, rfl, rfl⟩

theorem witness_CommandsWritePbufBelowLenOnly :
    (∃ t, exec .decbuf decbufState = .next t) ∧ decbufState.len.toNat ≤ 16 ∧ ∃ t, exec .strip decbufState = .next t :=
  ⟨⟨_, execDecbuf_legal _ witness_decbufState_legal⟩, by decide, ⟨_, rfl⟩⟩

/-- A step that does change CBUF. -/
theorem witness_OnlyTheHostWritesCbuf :
    ∃ t, step (writing base 0x34 0x11223344) = .next t ∧ t.cbuf ≠ base.cbuf := ⟨_, rfl, by decide⟩

/-- The machine of V-K3 meets the invariant, and so does the machine with BERR, a result in OUTLEN and a failed command. -/
theorem witness_StepKeepsTheInvariant :
    Inv decbufState ∧ (∃ t, step decbufState = .next t) ∧
    Inv { base with
      status := { base.status with done := true, err := true, berr := true, errcode := .keyNotFound }, outlen := 64 } := by
  refine ⟨⟨?_, ⟨by decide, by decide⟩, ⟨by decide, by decide⟩, by decide, by decide⟩, ⟨_, rfl⟩,
    ⟨?_, ⟨by decide, by decide⟩, ⟨by decide, by decide⟩, by decide, by decide⟩⟩ <;>
    (unfold StatusConsistent; decide)

/-- A host about to write, and to read, at each kind of offset, idle and busy. -/
theorem witness_HostWrites_and_HostReads :
    HostWrites (writing base 0x00 6) 0x00 6 [] ∧ (writing base 0x00 6).status.busy = false ∧
    HostWrites (writing (base.accept 6) 0x3C 0xFFFFFFFF) 0x3C 0xFFFFFFFF [] ∧
    (writing (base.accept 6) 0x3C 0xFFFFFFFF).status.busy = true ∧
    HostReads (reading base 0xFC) 0xFC [] ∧ (reading base 0xFC).status.busy = false ∧
    HostReads (reading (base.accept 6) 0x2C) 0x2C [] ∧ (reading (base.accept 6) 0x2C).status.busy = true :=
  ⟨rfl, rfl, rfl, rfl, rfl, rfl, rfl, rfl⟩

/-- The clauses by offset: each list and range of offsets at its ends, for a write and for a read. -/
theorem witness_offset_clauses :
    HostWrites (writing base 0x04 0x60) 0x04 0x60 [] ∧ HostWrites (writing base 0x0C 1) 0x0C 1 [] ∧
    HostWrites (writing base 0x40 1) 0x40 1 [] ∧ HostWrites (writing base 0x44 1) 0x44 1 [] ∧
    HostWrites (writing base 0xFC 1) 0xFC 1 [] ∧ HostWrites (writing base 0x30 7) 0x30 7 [] ∧
    HostWrites (writing base 0x38 7) 0x38 7 [] ∧ HostReads (reading base 0x00) 0x00 [] ∧
    HostReads (reading base 0x40) 0x40 [] ∧ HostReads (reading base 0x44) 0x44 [] :=
  ⟨rfl, rfl, rfl, rfl, rfl, rfl, rfl, rfl, rfl, rfl⟩

theorem witness_WrittenRegistersReadBack :
    HostWrites { base with agenda := [.host (.write 0x308 4 0xFFFFFFFF), .host (.read 0x308 4)] } 0x08 0xFFFFFFFF
      [.host (.read (base.cfg.devBase + 0x08) 4)] := rfl

/-- A port inside the buffer at its last word, and outside it at the first offset that is not in it. -/
theorem witness_ports :
    ({ base with cbIndex := 15 } : State).cbAddr.toNat + 4 ≤ base.bufBytes ∧
    base.bufBytes < ({ base with cbIndex := 16 } : State).cbAddr.toNat + 4 ∧
    ({ base with pbIndex := 15 } : State).pbAddr.toNat + 4 ≤ base.bufBytes ∧
    base.bufBytes < ({ base with pbIndex := 0x3FFFFFFF } : State).pbAddr.toNat + 4 ∧
    HostWrites (writing base 0x34 1) 0x34 1 [] ∧ HostReads (reading base 0x34) 0x34 [] ∧
    HostWrites (writing base 0x3C 1) 0x3C 1 [] ∧ HostReads (reading base 0x3C) 0x3C [] :=
  ⟨by decide, by decide, by decide, by decide, rfl, rfl, rfl, rfl⟩

theorem witness_StoredWordsReadBackThroughThePort :
    base.status.busy = false ∧ (60 : Word).toNat % 4 = 0 ∧ (60 : Word).toNat + 4 ≤ base.bufBytes ∧
    ({ base with agenda := [.host (.write 0x330 4 60), .host (.write 0x334 4 5), .host (.write 0x330 4 60),
      .host (.read 0x334 4)] } : State).agenda =
      [.host (.write (base.cfg.devBase + 0x30) 4 60), .host (.write (base.cfg.devBase + 0x34) 4 5),
        .host (.write (base.cfg.devBase + 0x30) 4 60), .host (.read (base.cfg.devBase + 0x34) 4)] :=
  ⟨rfl, by decide, by decide, rfl⟩

theorem witness_BusErrorsAreTheMisaccesses :
    Misaccess base.cfg (.read 0x304 2) ∧ Misaccess base.cfg (.write 0x3FF 4 0) ∧ ¬Misaccess base.cfg (.write 0x3FC 4 0) := by
  unfold Misaccess
  decide

theorem witness_AddressesOutsideTheWindowDoNothing :
    (Transaction.read 0x2FF 4).address < base.cfg.devBase ∧ base.cfg.devBase + 0xFF < (Transaction.write 0x400 1 0).address := by
  decide

/-- A busy machine and a host that writes a second command, writes LEN and polls. -/
theorem witness_HostCannotChangeACommandInFlight :
    (base.accept 6).status.busy = true ∧
    ({ base.accept 6 with agenda := [.host (.write 0x300 4 2), .host (.write 0x308 4 8), .host (.read 0x304 4), .engine] } :
      State).agenda =
      [Transaction.write 0x300 4 2, .write 0x308 4 8, .read 0x304 4].map Move.host ++ [.engine] ∧
    ∀ t ∈ [Transaction.write 0x300 4 2, .write 0x308 4 8, .read 0x304 4], ¬Misaccess base.cfg t :=
  ⟨rfl, rfl, by unfold Misaccess; decide⟩

/-- A transaction that is no write of CMD, and one to a busy machine. -/
theorem witness_HostAccessesNeverTouchTheOutcome :
    (∃ t, step (writing base 0x08 5) = .next t) ∧ (∀ v, ¬HostWrites (writing base 0x08 5) 0x00 v []) ∧
    (∃ t, step (writing (base.accept 6) 0x00 5) = .next t) ∧ (writing (base.accept 6) 0x00 5).status.busy = true := by
  refine ⟨⟨_, rfl⟩, fun v h => ?_, ⟨_, rfl⟩, rfl⟩
  simp [HostWrites, writing, base, State.resetAt, Config.devBase] at h

/-- The four clauses: OVR and BERR cleared by the host, OVR set by a write while BUSY, BERR by a port access. -/
theorem witness_StickyBitsStayUntilCleared :
    (∃ t, step (writing { base with status := { base.status with ovr := true, berr := true } } 0x04 0x60) = .next t ∧
      t.status.ovr = false ∧ t.status.berr = false) ∧
    (∃ t, step (writing (base.accept 6) 0x00 2) = .next t ∧ t.status.ovr = true) ∧
    (∃ t, step (reading { base with pbIndex := 16 } 0x3C) = .next t ∧ t.status.berr = true) :=
  ⟨⟨_, rfl, by decide, by decide⟩, ⟨_, rfl, by decide⟩, ⟨_, rfl, by decide⟩⟩

/-- A latched SEARCH of V-K3 that sets PLAUSIBLE and FOUND. -/
theorem witness_VerdictsChangeOnlyByScoreAndSearch :
    after (step (searchState.accept 6)) (fun t => t.status.plausible ∧ t.status.found) = true ∧
    (searchState.accept 6).status.plausible = false := ⟨by decide +kernel, rfl⟩

theorem witness_ResetAbandonsEverything :
    ({ searchState.accept 6 with agenda := [.reset, .engine] } : State).agenda = .reset :: [.engine] := rfl

theorem witness_IdleMachineKeepsItsState : base.status.busy = false ∧ base.agenda = [] := ⟨rfl, rfl⟩

theorem witness_EveryCommandCompletes :
    ∀ m ∈ [Move.host (.write 0x300 4 6), .engine, .reset, .host (.read 0x200 1)], Orderly base.cfg m := by
  intro m hm
  simp only [List.mem_cons, List.not_mem_nil, or_false] at hm
  rcases hm with rfl | rfl | rfl | rfl
  · simp [Orderly, Misaccess, accessSize, Transaction.address, base, State.resetAt, Config.devBase]
  · trivial
  · trivial
  · simp [Orderly, Misaccess, accessSize, Transaction.address, base, State.resetAt, Config.devBase]

/-- KEXP #0x41 accepted, one more step, and the host about to read STATUS. -/
theorem witness_BusyZeroAfterAcceptanceMeansDone :
    ∃ t, HostWrites { base with agenda := [.host (.write 0x300 4 0x4101), .engine, .host (.read 0x304 4)] } 0x00 0x4101
        [.engine, .host (.read 0x304 4)] ∧
      Move.reset ∉ [Move.engine, .host (.read 0x304 4)] ∧
      runs (1 + 1) { base with agenda := [.host (.write 0x300 4 0x4101), .engine, .host (.read 0x304 4)] } = .next t ∧
      HostReads t 0x04 [] ∧ t.status.busy = false := ⟨_, rfl, by decide, rfl, rfl, rfl⟩

end Sys2Proof.Tests
end

/-!
The machine's turn taken apart, for the statements of 10_state.md: decoding against R93's formula, what a command writes, and what
every step keeps.
-/

namespace Sys2Proof.Machine

open Sys2Proof.Safety

section Decoding

/-- The checks of 30_encoding.md R93, as propositions about the fields. -/
theorem legal_iff (f : CommandFields) :
    f.legal = true ↔ f.rsv = 0 ∧ (1 ≤ f.op.toNat ∧ f.op.toNat ≤ 6) ∧ (f.op = 0x01 ∨ f.imm8 = 0) := by
  simp only [CommandFields.legal, CommandFields.rsvZero, CommandFields.opAssigned, CommandFields.immAllowed,
    Bool.and_eq_true, decide_eq_true_eq, and_assoc]

/-- R93's formula on a word is the model's check on the fields of the word. -/
theorem legalWord_iff_legal_fieldsOf (w : Word) : LegalWord w ↔ (fieldsOf w).legal = true :=
  (legal_iff (fieldsOf w)).symm

/-- The assigned opcodes are the six values of 30_encoding.md R92. -/
theorem assigned_opcode_iff (op : Byte) :
    1 ≤ op.toNat ∧ op.toNat ≤ 6 ↔
      op = 0x01 ∨ op = 0x02 ∨ op = 0x03 ∨ op = 0x04 ∨ op = 0x05 ∨ op = 0x06 := by
  bv_omega

/-- A command without an immediate decodes to a command exactly when IMM8 is 0. -/
theorem withoutImm_eq_command_iff (f : CommandFields) (i j : Instr) :
    withoutImm f i = .command j ↔ f.imm8 = 0 ∧ i = j := by
  unfold withoutImm
  split <;> simp_all

/-- Fields that decode to a command pass every check of 30_encoding.md R93. -/
theorem legal_of_decodeFields_eq_command (f : CommandFields) (i : Instr) (h : decodeFields f = .command i) :
    f.legal = true := by
  rw [legal_iff, assigned_opcode_iff]
  unfold decodeFields at h
  split_ifs at h <;> simp_all [withoutImm_eq_command_iff]

/-- A word outside R93's formula is decoded to a reason. -/
theorem decode_illegal_of_not_legalWord (w : Word) (h : ¬LegalWord w) : ∃ why, decode w = .illegal why := by
  cases hd : decode w with
  | illegal why => exact ⟨why, rfl⟩
  | command i =>
    exact absurd ((legalWord_iff_legal_fieldsOf w).2 (legal_of_decodeFields_eq_command _ i hd)) h

end Decoding

section Commands

/-- `u` differs from `s` in the registers that the rule of command `i` names, and in `draws`, alone (10_state.md R28 to R34, R40;
92_eei_decisions.md D35). -/
structure WritesOnlyOwn (i : Instr) (s u : State) : Prop where
  frame : u = { s with
    status := { s.status with plausible := u.status.plausible, found := u.status.found }
    outlen := u.outlen, key := u.key, blk := u.blk, keyByte := u.keyByte, count := u.count, pbuf := u.pbuf
    draws := u.draws }
  blk : u.blk ≠ s.blk → i = .decb
  key : u.key ≠ s.key ∨ u.keyByte ≠ s.keyByte → (∃ b, i = .kexp b) ∨ i = .search
  count : u.count ≠ s.count → i = .score ∨ i = .search
  outlen : u.outlen ≠ s.outlen → i = .strip ∨ i = .search
  pbuf : u.pbuf ≠ s.pbuf → i = .decbuf ∨ i = .search
  plausible : u.status.plausible ≠ s.status.plausible → i = .score ∨ i = .search
  found : u.status.found ≠ s.status.found → i = .search

/-- Nothing written. -/
theorem WritesOnlyOwn.refl (i : Instr) (s : State) : WritesOnlyOwn i s s := by
  constructor <;> simp

/-- Every command completes, with success or with an error, and before that writes only the registers of its rule. -/
theorem exec_completes (i : Instr) (s : State) :
    ∃ u code, exec i s = .next (State.complete u code) ∧ WritesOnlyOwn i s u := by
  cases i with
  | kexp b => exact ⟨_, _, rfl, by constructor <;> simp⟩
  | decb => exact ⟨_, _, rfl, by constructor <;> simp⟩
  | decbuf =>
    by_cases h : s.bodyError = .none
    · exact ⟨_, _, execDecbuf_legal s ((bodyError_eq_none s).1 h), by constructor <;> simp⟩
    · exact ⟨_, _, execDecbuf_error s h, .refl _ s⟩
  | score =>
    rcases Nat.lt_or_ge s.bufBytes s.len.toNat with h | h
    · exact ⟨_, _, execScore_error s h, by constructor <;> simp [State.withPlausible]⟩
    · exact ⟨_, _, execScore_legal s h, by constructor <;> simp [State.withPlausible]⟩
  | strip =>
    rcases Nat.lt_or_ge s.bufBytes s.len.toNat with h | h
    · exact ⟨_, _, execStrip_error s h, .refl _ s⟩
    · exact ⟨_, _, execStrip_legal s h, by constructor <;> simp⟩
  | search =>
    rcases execSearch_cases s with ⟨b, -, -, -, h⟩ | ⟨-, -, h⟩ | ⟨-, h⟩
    · exact ⟨_, _, h, by constructor <;> simp [State.withVerdict]⟩
    · exact ⟨_, _, h, by constructor <;> simp [State.withVerdict]⟩
    · exact ⟨_, _, h, by constructor <;> simp [State.withVerdict]⟩

/-- The engine step of a state completes a command: the parameters and the moves to come stay. -/
theorem engineStep_completes (s : State) :
    ∃ u code, engineStep s = .next (State.complete u code) ∧ u.cfg = s.cfg ∧ u.agenda = s.agenda := by
  unfold engineStep
  cases decode s.latch with
  | command i =>
    obtain ⟨u, code, he, hw⟩ := exec_completes i s
    exact ⟨u, code, he, by rw [hw.frame], by rw [hw.frame]⟩
  | illegal why => exact ⟨s, _, rfl, rfl, rfl⟩

/-- The engine step of a latched command. -/
theorem engineStep_command (s : State) (i : Instr) (h : decode s.latch = .command i) : engineStep s = exec i s := by
  simp [engineStep, h]

/-- The engine step of a latched word that is no command's (30_encoding.md R94). -/
theorem engineStep_not_legalWord (s : State) (h : ¬LegalWord s.latch) :
    engineStep s = .next (s.complete .illegalCommand) := by
  obtain ⟨why, hd⟩ := decode_illegal_of_not_legalWord s.latch h
  simp [engineStep, hd]

/-- ERR and ERRCODE after completion say the same outcome (10_state.md R22). -/
theorem Status.completed_outcome (s : Status) (code : ErrorCode) :
    (s.completed code).err = false ∧ (s.completed code).errcode = .none ∨
      (s.completed code).err = true ∧ (s.completed code).errcode ≠ .none := by
  by_cases h : code = .none <;> simp [h]

end Commands

section Turn

/-- When nothing is to come, or an engine move is first, the engine has the turn. -/
theorem step_eq_engineTurn (s : State) (rest : List Move)
    (h : s.agenda = [] ∧ rest = [] ∨ s.agenda = .engine :: rest) : step s = engineTurn (withAgenda s rest) := by
  rcases h with ⟨hn, rfl⟩ | hc
  · have hw : withAgenda s [] = s := by rw [← hn]; rfl
    rw [hw, step_nil s hn]
  · exact step_cons s .engine rest hc

/-- The state `latched` builds has the engine to move next, with the word accepted. -/
theorem step_latched (s : State) (w : Word) : step (s.latched w) = engineStep (s.accept w) := by
  have ha : withAgenda (s.latched w) s.agenda = s.accept w := rfl
  have hturn : (s.latched w).agenda = [] ∧ s.agenda = [] ∨ (s.latched w).agenda = .engine :: s.agenda := by
    unfold State.latched
    cases s.agenda with
    | nil => exact .inl ⟨rfl, rfl⟩
    | cons m rest => exact .inr rfl
  rw [step_eq_engineTurn _ s.agenda hturn, ha, engineTurn_busy _ rfl]

/-- A number below 2^32 stands for itself in the opcode table's numbering. -/
theorem tableWord_toNat (w : Word) : tableWord 32 w.toNat = some w := by
  simp [tableWord, Nat.mod_eq_of_lt w.isLt, w.isLt]

/-- `withFetchWord` places the word it is given. -/
theorem withFetchWord_toNat (s : State) (w : Word) : s.withFetchWord 32 w.toNat = s.latched w := by
  simp [State.withFetchWord, tableWord_toNat]

end Turn

section Frames

/-- A write of CB_DATA can change the port's address register, CBUF and BERR (20_memory.md R66). -/
theorem writeCbData_frame (v : Word) (s : State) :
    writeCbData v s =
      { s with
        status := { s.status with berr := (writeCbData v s).status.berr }
        cbIndex := (writeCbData v s).cbIndex, cbuf := (writeCbData v s).cbuf } := by
  unfold writeCbData
  split <;> rfl

/-- A write of PB_DATA can change the port's address register, PBUF and BERR (20_memory.md R66). -/
theorem writePbData_frame (v : Word) (s : State) :
    writePbData v s =
      { s with
        status := { s.status with berr := (writePbData v s).status.berr }
        pbIndex := (writePbData v s).pbIndex, pbuf := (writePbData v s).pbuf } := by
  unfold writePbData
  split <;> rfl

/-- What a host write never changes: the parameters, OUTLEN, KEYBYTE, COUNT, PLAUSIBLE, FOUND, and the model's own `draws` and
`agenda`. -/
theorem hostWrite_frame (r : Reg) (v : Word) (s : State) :
    hostWrite r v s =
      { hostWrite r v s with
        cfg := s.cfg, outlen := s.outlen, keyByte := s.keyByte, count := s.count, draws := s.draws, agenda := s.agenda
        status := { (hostWrite r v s).status with plausible := s.status.plausible, found := s.status.found } } := by
  cases hb : s.status.busy
  · rw [hostWrite_idle r v s hb]
    cases r
    case cbData => rw [writeIdle, writeCbData_frame]; rfl
    case pbData => rw [writeIdle, writePbData_frame]; rfl
    all_goals rfl
  · rw [hostWrite_busy r v s hb, writeBusy_frame]
    rfl

/-- A read that BUSY does not influence. -/
theorem hostRead_of_both {r : Reg} {s t : State} (hidle : readIdle r s = t) (hbusy : readBusy r s = t) :
    hostRead r s = t := by
  unfold hostRead
  split
  · exact hbusy
  · exact hidle

/-- A write that BUSY does not influence. -/
theorem hostWrite_of_both {r : Reg} {v : Word} {s t : State} (hidle : writeIdle r v s = t)
    (hbusy : writeBusy r v s = t) : hostWrite r v s = t.answer .done := by
  unfold hostWrite
  split
  · rw [hbusy]
  · rw [hidle]

/-- Every step keeps the parameters and takes the first move off the agenda. -/
theorem step_keeps_cfg_takes_move (s t : State) (h : step s = .next t) :
    t.cfg = s.cfg ∧ t.agenda = s.agenda.tail := by
  rcases step_cases s with ⟨-, -, hs⟩ | ⟨-, -, hs⟩ | ⟨off, rest, -, -, ha, hs⟩ | ⟨off, v, rest, -, -, ha, hs⟩ |
    ⟨_, _, _, _, hs⟩ | ⟨x, rest, ha, -, hs⟩ | ⟨rest, ha, hs⟩
  case inr.inr.inr.inr.inl => exact absurd (hs.symm.trans h) (by simp)
  all_goals rw [hs] at h
  · cases h
    exact ⟨rfl, rfl⟩
  · obtain ⟨u, code, he, hcfg, hagenda⟩ := engineStep_completes (withAgenda s s.agenda.tail)
    rw [he] at h
    cases h
    exact ⟨hcfg, hagenda⟩
  · cases h
    rw [hostRead_frame, ha]
    exact ⟨rfl, rfl⟩
  · cases h
    rw [hostWrite_frame, ha]
    exact ⟨rfl, rfl⟩
  · cases h
    rw [ha]
    exact ⟨rfl, rfl⟩
  · cases h
    rw [ha]
    exact ⟨rfl, rfl⟩

/-- A step whose move is no misaccess does not fault. -/
theorem step_next_of_orderly (s : State) (h : ∀ m ∈ s.agenda.head?, Orderly s.cfg m) : ∃ t, step s = .next t := by
  rcases step_cases s with ⟨-, -, hs⟩ | ⟨-, -, hs⟩ | ⟨off, rest, -, -, -, hs⟩ | ⟨off, v, rest, -, -, -, hs⟩ |
    ⟨x, rest, ha, hm, -⟩ | ⟨x, rest, -, -, hs⟩ | ⟨rest, -, hs⟩
  case inr.inr.inr.inr.inl => exact absurd hm (h (.host x) (by simp [ha]))
  case inr.inl =>
    obtain ⟨u, code, he, -⟩ := engineStep_completes (withAgenda s s.agenda.tail)
    exact ⟨_, hs.trans he⟩
  all_goals exact ⟨_, hs⟩

/-- An engine turn leaves the machine idle. -/
theorem engineTurn_ends_idle (s t : State) (h : engineTurn s = .next t) : t.status.busy = false := by
  cases hb : s.status.busy with
  | false =>
    rw [engineTurn_idle s hb] at h
    cases h
    exact hb
  | true =>
    obtain ⟨u, code, he, -⟩ := engineStep_completes s
    rw [engineTurn_busy s hb, he] at h
    cases h
    rfl

end Frames

section Registers

/-- A word that has bits 5 and 6 clear clears nothing of STATUS (10_state.md R27). -/
theorem Status.clearedBy_of_zero_bits (s : Status) (v : Word) (h5 : v.getLsbD 5 = false) (h6 : v.getLsbD 6 = false) :
    s.clearedBy v = s := by
  simp only [Status.clearedBy, h5, h6, Bool.not_false, Bool.and_true]

/-- Write-1-to-clear, bit by bit, as 10_state.md R27 says it. -/
theorem Status.clearedBy_eq_ite (s : Status) (v : Word) :
    s.clearedBy v =
      { s with
        ovr := if v.getLsbD 5 then false else s.ovr
        berr := if v.getLsbD 6 then false else s.berr } := by
  have hbit (b c : Bool) : (b && !c) = if c then false else b := by cases c <;> simp
  simp only [Status.clearedBy, hbit]

/-- STATUS takes a write busy or not (10_state.md R27). -/
theorem hostWrite_status (v : Word) (s : State) :
    hostWrite .status v s = State.answer { s with status := s.status.clearedBy v } .done :=
  hostWrite_of_both rfl rfl

/-- The registers whose writes are ignored, busy or not (10_state.md R39). -/
theorem hostWrite_ignored (r : Reg) (v : Word) (s : State) (h : r ∈ [.outlen, .keyByte, .count, .bufsize, .reserved]) :
    hostWrite r v s = s.answer .done := by
  simp only [List.mem_cons, List.not_mem_nil, or_false] at h
  rcases h with rfl | rfl | rfl | rfl | rfl <;> exact hostWrite_of_both rfl rfl

/-- A reserved offset reads 0, busy or not (10_state.md R39). -/
theorem hostRead_reserved (s : State) : hostRead .reserved s = s.answer (.data 0) := hostRead_of_both rfl rfl

/-- CMD reads 0, busy or not (10_state.md R25). -/
theorem hostRead_cmd (s : State) : hostRead .cmd s = s.answer (.data 0) := hostRead_of_both rfl rfl

/-- BUFSIZE reads BUF_BYTES, busy or not (10_state.md R38). -/
theorem hostRead_bufsize (s : State) : hostRead .bufsize s = s.answer (.data s.bufsize) := hostRead_of_both rfl rfl

/-- KEYBYTE reads its byte below 24 zero bits (10_state.md R32). -/
theorem keyByteWord_eq_append (s : State) : s.keyByteWord = 0#24 ++ s.keyByte := by
  apply BitVec.eq_of_toNat_eq
  show _ = (0#24 ++ s.keyByte : BitVec (24 + 8)).toNat
  rw [State.keyByteWord, BitVec.toNat_append, BitVec.toNat_setWidth_of_le (by decide)]
  simp

/-- What the registers of the window but the data ports and the reserved offsets hold, by offset (10_state.md R24). -/
def registerValues (s : State) : List (Nat × Word) :=
  [(0x00, 0x00000000), (0x04, s.status.word), (0x08, s.len), (0x0C, s.outlen), (0x10, s.key.key0), (0x14, s.key.key1),
    (0x18, s.key.key2), (0x1C, s.key.key3), (0x20, s.blk.y), (0x24, s.blk.z), (0x28, 0#24 ++ s.keyByte),
    (0x2C, s.count), (0x30, s.cbAddr), (0x38, s.pbAddr), (0x40, BitVec.ofNat 32 s.bufBytes)]

/-- An idle read of a register answers what it holds, and nothing else happens. -/
theorem readIdle_of_mem_registerValues (s : State) :
    ∀ p ∈ registerValues s, readIdle (regAt p.1) s = s.answer (.data p.2) := by
  simp only [registerValues, List.forall_mem_cons, List.not_mem_nil, false_imp_iff, implies_true, and_true]
  refine ⟨rfl, rfl, rfl, rfl, rfl, rfl, rfl, rfl, rfl, rfl, ?_, rfl, rfl, rfl, rfl⟩
  rw [← keyByteWord_eq_append]
  rfl

/-- Every aligned offset below the reserved ones, but the data ports', has a register value. -/
theorem exists_mem_registerValues (s : State) (off : Nat) (h4 : off % 4 = 0) (hlt : off < 0x44) (hcb : off ≠ 0x34)
    (hpb : off ≠ 0x3C) : ∃ v, (off, v) ∈ registerValues s := by
  have hmem : off ∈ (registerValues s).map Prod.fst := by
    simp only [registerValues, List.map_cons, List.map_nil, List.mem_cons, List.not_mem_nil, or_false]
    omega
  obtain ⟨⟨_, v⟩, hp, rfl⟩ := List.mem_map.1 hmem
  exact ⟨v, hp⟩

/-- The register at `off` takes the word `v` while idle: the write makes `t` of `s`, and the read then answers `v` (10_state.md
R28, R30, R31). -/
structure TakesWord (off : Nat) (v : Word) (s t : State) : Prop where
  offset : off < 256 ∧ off % 4 = 0
  cfg : t.cfg = s.cfg
  status : t.status = s.status
  answers : t.answers = s.answers
  write : ∀ a, writeIdle (regAt off) v (withAgenda s a) = withAgenda t a
  read : ∀ a l, readIdle (regAt off) { t with agenda := a, answers := l } = { t with agenda := a, answers := .data v :: l }

/-- The write to a register that takes the word, as a step. -/
theorem TakesWord.step_write {off : Nat} {v : Word} {s t : State} (ht : TakesWord off v s t) {rest : List Move}
    (hidle : s.status.busy = false) (h : HostWrites s off v rest) :
    step s = .next { t with agenda := rest, answers := .done :: s.answers } := by
  obtain ⟨hlt, h4⟩ := ht.offset
  rw [step_hostWrites_idle s off v rest h hlt h4 hidle, ht.write, ← ht.answers]
  rfl

/-- The read of a register that has taken the word, as a step. -/
theorem TakesWord.step_read {off : Nat} {v : Word} {s t : State} (ht : TakesWord off v s t) {rest : List Move}
    {l : List Answer} (hidle : s.status.busy = false) :
    step { t with agenda := .host (.read (s.cfg.devBase + off) 4) :: rest, answers := l } =
      .next { t with agenda := rest, answers := .data v :: l } := by
  obtain ⟨hlt, h4⟩ := ht.offset
  have hreads : HostReads { t with agenda := .host (.read (s.cfg.devBase + off) 4) :: rest, answers := l } off rest := by
    rw [HostReads, ht.cfg]
  rw [step_hostReads_idle _ off rest hreads hlt h4 (ht.status ▸ hidle)]
  exact congrArg _ (ht.read rest l)

end Registers

end Sys2Proof.Machine

namespace Sys2Proof.Proofs

open Sys2Proof.Machine Sys2Proof.Safety

/-- Settles O5: the turn is the engine's, an idle engine does nothing, and every outcome of `engineStep` is a completion. -/
theorem engineStepCompletesTheLatchedWord : Obligations.EngineStepCompletesTheLatchedWord := by
  intro s rest hturn
  rw [step_eq_engineTurn s rest hturn]
  refine ⟨fun hidle => engineTurn_idle _ hidle, fun hbusy => ?_⟩
  rw [engineTurn_busy (withAgenda s rest) hbusy]
  refine ⟨fun i hd => engineStep_command _ i hd, fun hl => engineStep_not_legalWord (withAgenda s rest) hl, ?_⟩
  obtain ⟨u, code, he, -⟩ := engineStep_completes (withAgenda s rest)
  exact ⟨_, he, rfl, rfl, u.status.completed_outcome code⟩

/-- Settles O23: what `exec_completes` says of the state before completion, which writes BUSY, DONE, ERR and ERRCODE alone. -/
theorem commandsWriteOnlyTheirRegisters : Obligations.CommandsWriteOnlyTheirRegisters := by
  intro i s
  obtain ⟨u, code, he, hw⟩ := exec_completes i s
  refine ⟨_, he, ?_, ?_, ?_, ?_, ?_, ?_, ?_, ?_, ?_, ?_, hw.blk, hw.key, hw.count, hw.outlen, hw.pbuf, hw.plausible,
    hw.found⟩
  all_goals rw [hw.frame]; rfl

/-- Settles O37: BUFSIZE is read from the parameters, which no step changes and which satisfy R7 by construction. -/
theorem bufsizeIsConstant : Obligations.BufsizeIsConstant := by
  refine ⟨fun s rest hr => ⟨s.bufsize, ?_, ?_⟩, fun s t h => ?_, fun s => ?_⟩
  · obtain ⟨-, hle, -⟩ := bufBytes_bounds s.cfg
    rw [State.bufsize, BitVec.toNat_ofNat, State.bufBytes_eq, Nat.mod_eq_of_lt (by omega)]
  · rw [step_hostReads s 0x40 rest hr (by decide) rfl]
    exact congrArg _ (hostRead_bufsize _)
  · obtain ⟨hcfg, -⟩ := step_keeps_cfg_takes_move s t h
    exact ⟨hcfg, by rw [State.bufBytes_eq, State.bufBytes_eq, hcfg]⟩
  · obtain ⟨hge, hle, hmod⟩ := bufBytes_bounds s.cfg
    exact ⟨hmod, hge, hle⟩

/-- Settles O49, by induction on the moves to come: each is taken, and the engine's turn at the end leaves the machine idle. -/
theorem everyCommandCompletes : Obligations.EveryCommandCompletes := by
  intro s
  generalize hl : s.agenda = l
  induction l generalizing s with
  | nil =>
    intro _
    obtain ⟨t, ht⟩ := step_next_of_orderly s (by simp [hl])
    obtain ⟨-, hagenda⟩ := step_keeps_cfg_takes_move s t ht
    refine ⟨t, by rw [List.length_nil, runs_succ 0 s t ht, runs_zero], by rw [hagenda, hl]; rfl, ?_⟩
    exact engineTurn_ends_idle s t (by rw [← step_nil s hl, ht])
  | cons m rest ih =>
    intro horderly
    obtain ⟨t, ht⟩ := step_next_of_orderly s (by simpa [hl] using horderly m)
    obtain ⟨hcfg, hagenda⟩ := step_keeps_cfg_takes_move s t ht
    rw [List.length_cons, runs_succ _ s t ht]
    refine ih t (by rw [hagenda, hl]; rfl) fun m' hm => ?_
    rw [hcfg]
    exact horderly m' (List.mem_cons_of_mem m hm)

/-- Settles O4: the engine's turn of a busy machine is the engine step, and `withFetchWord` makes it the next one. -/
theorem stepRunsTheLatchedCommand : Obligations.StepRunsTheLatchedCommand := by
  intro s i
  refine ⟨fun hbusy hd => ⟨fun hnil => ?_, fun rest hcons => ?_⟩, fun w hd => ?_⟩
  · rw [step_nil s hnil, engineTurn_busy s hbusy, engineStep_command s i hd]
  · rw [step_eq_engineTurn s rest (.inr hcons), engineTurn_busy (withAgenda s rest) hbusy,
      engineStep_command (withAgenda s rest) i hd]
  · rw [withFetchWord_toNat, step_latched, engineStep_command (s.accept w) i hd]

/-- Settles O26: every clause is about the values of 10_state.md R44's table and the three draws made at reset. -/
theorem invariantHoldsAtReset : Obligations.InvariantHoldsAtReset where
  status := by simp [StatusConsistent, State.reset, State.resetAt, Status.zero]
  cbuf := ⟨rfl, rfl⟩
  pbuf := ⟨rfl, rfl⟩
  outlen := Nat.zero_le _
  fresh := by decide

/-- Settles O32: an address register is its stored bits 31:2 over two zero bits, and a write stores bits 31:2. -/
theorem addressRegistersAreWordAligned : Obligations.AddressRegistersAreWordAligned := by
  refine ⟨fun s => ⟨?_, ?_⟩, fun s v rest hidle h => ?_, fun s v rest hidle h => ?_⟩
  · rw [State.cbAddr, addrOfIndex_toNat, portOffset, Nat.mul_mod_right]
  · rw [State.pbAddr, addrOfIndex_toNat, portOffset, Nat.mul_mod_right]
  · exact ⟨_, step_hostWrites_idle s 0x30 v rest h (by decide) rfl hidle, addrOfIndex_indexOfAddr v, rfl⟩
  · exact ⟨_, step_hostWrites_idle s 0x38 v rest h (by decide) rfl hidle, addrOfIndex_indexOfAddr v, rfl⟩

/-- Settles O28: acceptance looks at no bit of the word, and CMD reads 0 busy or not. -/
theorem cmdWriteAcceptsTheWord : Obligations.CmdWriteAcceptsTheWord :=
  ⟨fun s w rest hidle h => step_hostWrites_idle s 0x00 w rest h (by decide) rfl hidle,
    fun s rest h => (step_hostReads s 0x00 rest h (by decide) rfl).trans (congrArg _ (hostRead_cmd _))⟩

/-- Settles O29: the write goes through busy or not, and clears a bit where the word has a 1. -/
theorem statusWriteClearsStickyBits : Obligations.StatusWriteClearsStickyBits := by
  intro s v rest h
  rw [step_hostWrites s 0x04 v rest h (by decide) rfl, ← Status.clearedBy_eq_ite]
  exact congrArg _ (hostWrite_status v _)

/-- Settles O30: each of the seven registers takes the word, so the write and the read that follows it are two steps. -/
theorem writtenRegistersReadBack : Obligations.WrittenRegistersReadBack := by
  intro s v rest off t hidle hmem h
  have ht : TakesWord off v s t := by
    simp only [List.mem_cons, List.not_mem_nil, or_false, Prod.mk.injEq] at hmem
    rcases hmem with ⟨rfl, rfl⟩ | ⟨rfl, rfl⟩ | ⟨rfl, rfl⟩ | ⟨rfl, rfl⟩ | ⟨rfl, rfl⟩ | ⟨rfl, rfl⟩ | ⟨rfl, rfl⟩ <;>
      exact ⟨by decide, rfl, rfl, rfl, fun _ => rfl, fun _ _ => rfl⟩
  have hw := ht.step_write hidle h
  constructor
  · rw [runs_succ 0 s _ hw, runs_zero]
  · rw [runs_succ 1 s _ hw, runs_succ 0 _ _ (ht.step_read hidle), runs_zero]

/-- Settles O31: the reserved offsets, and the table of register values for the others. -/
theorem idleReadsReturnTheRegister : Obligations.IdleReadsReturnTheRegister := by
  intro s rest off hidle h4 hlt hcb hpb h
  rw [step_hostReads_idle s off rest h hlt h4 hidle]
  refine ⟨fun hres => by rw [regAt_reserved off hres]; rfl, fun hreg => ?_⟩
  obtain ⟨v, hv⟩ := exists_mem_registerValues s off h4 hreg hcb hpb
  exact ⟨v, congrArg _ (readIdle_of_mem_registerValues (withAgenda s rest) (off, v) hv), hv⟩

/-- Settles O36: what BUSY does not influence, at the reserved offsets, the read-only registers and STATUS. -/
theorem readOnlyAndReservedIgnoreWrites : Obligations.ReadOnlyAndReservedIgnoreWrites := by
  refine ⟨fun s rest off h4 hge hle h => ?_, fun s v rest off hoff h => ?_, fun s v rest h5 h6 h => ?_⟩
  · rw [step_hostReads s off rest h (by omega) h4, regAt_reserved off hge]
    exact congrArg _ (hostRead_reserved _)
  · have hignored : off < 256 ∧ off % 4 = 0 ∧ regAt off ∈ [Reg.outlen, .keyByte, .count, .bufsize, .reserved] := by
      rcases hoff with ⟨h4, hge, hle⟩ | hro
      · exact ⟨by omega, h4, by simp [regAt_reserved off hge]⟩
      · simp only [List.mem_cons, List.not_mem_nil, or_false] at hro
        rcases hro with rfl | rfl | rfl | rfl <;> decide
    obtain ⟨hlt, h4, hr⟩ := hignored
    rw [step_hostWrites s off v rest h hlt h4]
    exact congrArg _ (hostWrite_ignored _ v _ hr)
  · rw [step_hostWrites s 0x04 v rest h (by decide) rfl]
    refine congrArg _ ((hostWrite_status v _).trans ?_)
    rw [Status.clearedBy_of_zero_bits _ v h5 h6]
    rfl

end Sys2Proof.Proofs

/-!
The buffers and the host's accesses to them, for the statements of 20_memory.md: what each kind of step writes to CBUF and PBUF,
the ports inside and outside the buffer, and what a step keeps whatever it does.
-/

namespace Sys2Proof.Machine

open Sys2Proof.Safety

section CommandBounds

/-- What a command leaves of the buffers' bookkeeping: PBUF is rewritten below LEN or not at all, OUTLEN stays in the buffer, and
draws are only added (20_memory.md R71, 41_buffer.md R146). -/
structure WritesInBounds (s t : State) : Prop where
  pbuf : t.pbuf = s.pbuf ∨
    ∃ bytes : List Byte, bytes.length = s.len.toNat ∧ s.len.toNat ≤ s.bufBytes ∧ t.pbuf = s.pbuf.writeBytes 0 bytes
  outlen : t.outlen = s.outlen ∨ t.outlen.toNat ≤ s.bufBytes
  draws : s.draws ≤ t.draws

/-- None of the three touched. -/
theorem WritesInBounds.of_eq {s t : State} (hpbuf : t.pbuf = s.pbuf) (houtlen : t.outlen = s.outlen)
    (hdraws : t.draws = s.draws) : WritesInBounds s t :=
  ⟨.inl hpbuf, .inl houtlen, hdraws.ge⟩

/-- The length strip_len gives is, as a word, at most the length of the body (41_buffer.md R145). -/
theorem ofNat_stripLen_toNat_le (p : List Byte) : (BitVec.ofNat 32 (stripLen p)).toNat ≤ p.length := by
  rw [BitVec.toNat_ofNat]
  exact (Nat.mod_le _ _).trans (stripLen_le p)

/-- The trial of a legal body is as long as LEN (41_buffer.md R140). -/
theorem trial_cipherBody_length (s : State) (b : Byte) (h : BodyLegal s) : (trial s.cipherBody b).length = s.len.toNat :=
  decryptBody_length (expandKey b) s.cbuf s.len.toNat h.2.1

/-- Every command writes in bounds. -/
theorem exec_writesInBounds (i : Instr) (s : State) : ∃ t, exec i s = .next t ∧ WritesInBounds s t := by
  cases i with
  | kexp b => exact ⟨_, rfl, .of_eq rfl rfl rfl⟩
  | decb => exact ⟨_, rfl, .of_eq rfl rfl rfl⟩
  | decbuf =>
    by_cases h : s.bodyError = .none
    · have hlegal := (bodyError_eq_none s).1 h
      have ⟨_, hmod, hle⟩ := hlegal
      exact ⟨_, execDecbuf_legal s hlegal, .inr ⟨_, decryptBody_length s.key s.cbuf _ hmod, hle, rfl⟩, .inl rfl, le_rfl⟩
    · exact ⟨_, execDecbuf_error s h, .of_eq rfl rfl rfl⟩
  | score =>
    rcases Nat.lt_or_ge s.bufBytes s.len.toNat with h | h
    · exact ⟨_, execScore_error s h, .of_eq rfl rfl rfl⟩
    · exact ⟨_, execScore_legal s h, .of_eq rfl rfl rfl⟩
  | strip =>
    rcases Nat.lt_or_ge s.bufBytes s.len.toNat with h | h
    · exact ⟨_, execStrip_error s h, .of_eq rfl rfl rfl⟩
    · have hle := ofNat_stripLen_toNat_le (s.pbuf.readBytes 0 s.len.toNat)
      rw [Memory.readBytes_length] at hle
      exact ⟨_, execStrip_legal s h, .inl rfl, .inr (hle.trans h), le_rfl⟩
  | search =>
    rcases execSearch_cases s with ⟨b, hlegal, -, -, h⟩ | ⟨⟨-, -, hle⟩, -, h⟩ | ⟨-, h⟩
    · have ⟨_, _, hle⟩ := hlegal
      have hlen := trial_cipherBody_length s b hlegal
      exact ⟨_, h, .inr ⟨_, hlen, hle, rfl⟩, .inr ((ofNat_stripLen_toNat_le _).trans (hlen.trans_le hle)), le_rfl⟩
    · exact ⟨_, h, .inr ⟨_, freeBytes_length _ _ _, hle, rfl⟩, .inl rfl, Nat.le_add_right _ _⟩
    · exact ⟨_, h, .of_eq rfl rfl rfl⟩

/-- The engine step runs a command or completes with ILLEGAL_COMMAND (30_encoding.md R94). -/
theorem engineStep_cases (s : State) :
    (∃ i, engineStep s = exec i s) ∨ engineStep s = .next (s.complete .illegalCommand) := by
  unfold engineStep
  cases decode s.latch with
  | command i => exact .inl ⟨i, rfl⟩
  | illegal why => exact .inr rfl

/-- No engine step writes CBUF (20_memory.md R70). -/
theorem engineStep_keeps_cbuf {s t : State} (h : engineStep s = .next t) : t.cbuf = s.cbuf := by
  rcases engineStep_cases s with ⟨i, he⟩ | he
  · obtain ⟨u, code, hexec, hw⟩ := exec_completes i s
    rw [he, hexec] at h
    cases h
    rw [State.complete_cbuf, hw.frame]
  · rw [he] at h
    cases h
    rfl

end CommandBounds

section HostBuffers

/-- A write of CB_DATA inside the buffer (20_memory.md R66). -/
theorem writeCbData_inside (v : Word) (s : State) (h : s.cbAddr.toNat + 4 ≤ s.bufBytes) :
    writeCbData v s = { s with cbuf := s.cbuf.writeWord s.cbAddr.toNat v, cbIndex := s.cbIndex + 1 } := by
  rw [State.cbAddr, addrOfIndex_toNat] at h ⊢
  simp [writeCbData, State.portInside, h]

/-- A write of CB_DATA outside the buffer (20_memory.md R66). -/
theorem writeCbData_outside (v : Word) (s : State) (h : s.bufBytes < s.cbAddr.toNat + 4) :
    writeCbData v s = { s.portError with cbIndex := s.cbIndex + 1 } := by
  rw [State.cbAddr, addrOfIndex_toNat] at h
  simp [writeCbData, State.portInside, h]

/-- A write of PB_DATA inside the buffer (20_memory.md R66). -/
theorem writePbData_inside (v : Word) (s : State) (h : s.pbAddr.toNat + 4 ≤ s.bufBytes) :
    writePbData v s = { s with pbuf := s.pbuf.writeWord s.pbAddr.toNat v, pbIndex := s.pbIndex + 1 } := by
  rw [State.pbAddr, addrOfIndex_toNat] at h ⊢
  simp [writePbData, State.portInside, h]

/-- A write of PB_DATA outside the buffer (20_memory.md R66). -/
theorem writePbData_outside (v : Word) (s : State) (h : s.bufBytes < s.pbAddr.toNat + 4) :
    writePbData v s = { s.portError with pbIndex := s.pbIndex + 1 } := by
  rw [State.pbAddr, addrOfIndex_toNat] at h
  simp [writePbData, State.portInside, h]

/-- A read of CB_DATA inside the buffer (20_memory.md R67). -/
theorem readCbData_inside (s : State) (h : s.cbAddr.toNat + 4 ≤ s.bufBytes) :
    readCbData s = State.answer { s with cbIndex := s.cbIndex + 1 } (.data (s.cbuf.readWord s.cbAddr.toNat)) := by
  rw [State.cbAddr, addrOfIndex_toNat] at h ⊢
  simp [readCbData, State.portInside, h]

/-- A read of CB_DATA outside the buffer (20_memory.md R67). -/
theorem readCbData_outside (s : State) (h : s.bufBytes < s.cbAddr.toNat + 4) :
    readCbData s = State.answer { s.portError with cbIndex := s.cbIndex + 1 } (.data 0) := by
  rw [State.cbAddr, addrOfIndex_toNat] at h
  simp [readCbData, State.portInside, h]

/-- A read of PB_DATA inside the buffer (20_memory.md R67). -/
theorem readPbData_inside (s : State) (h : s.pbAddr.toNat + 4 ≤ s.bufBytes) :
    readPbData s = State.answer { s with pbIndex := s.pbIndex + 1 } (.data (s.pbuf.readWord s.pbAddr.toNat)) := by
  rw [State.pbAddr, addrOfIndex_toNat] at h ⊢
  simp [readPbData, State.portInside, h]

/-- A read of PB_DATA outside the buffer (20_memory.md R67). -/
theorem readPbData_outside (s : State) (h : s.bufBytes < s.pbAddr.toNat + 4) :
    readPbData s = State.answer { s.portError with pbIndex := s.pbIndex + 1 } (.data 0) := by
  rw [State.pbAddr, addrOfIndex_toNat] at h
  simp [readPbData, State.portInside, h]

/-- A host write leaves CBUF as it is, or is a write of CB_DATA to an idle machine, inside the buffer (20_memory.md R66). -/
theorem hostWrite_cbuf_cases (r : Reg) (v : Word) (s : State) :
    (hostWrite r v s).cbuf = s.cbuf ∨
      s.status.busy = false ∧ r = .cbData ∧ s.cbAddr.toNat + 4 ≤ s.bufBytes ∧
        (hostWrite r v s).cbuf = s.cbuf.writeWord s.cbAddr.toNat v := by
  cases hb : s.status.busy with
  | true =>
    rw [hostWrite_busy r v s hb, writeBusy_frame]
    exact .inl rfl
  | false =>
    rw [hostWrite_idle r v s hb]
    cases r
    case cbData =>
      rcases Nat.lt_or_ge s.bufBytes (s.cbAddr.toNat + 4) with hout | hin
      · exact .inl (by rw [writeIdle, writeCbData_outside v s hout]; rfl)
      · exact .inr ⟨rfl, rfl, hin, by rw [writeIdle, writeCbData_inside v s hin]; rfl⟩
    case pbData => exact .inl (by rw [writeIdle, writePbData_frame]; rfl)
    all_goals exact .inl rfl

/-- A host write leaves PBUF as it is, or is a write of PB_DATA to an idle machine, inside the buffer (20_memory.md R66). -/
theorem hostWrite_pbuf_cases (r : Reg) (v : Word) (s : State) :
    (hostWrite r v s).pbuf = s.pbuf ∨
      s.status.busy = false ∧ r = .pbData ∧ s.pbAddr.toNat + 4 ≤ s.bufBytes ∧
        (hostWrite r v s).pbuf = s.pbuf.writeWord s.pbAddr.toNat v := by
  cases hb : s.status.busy with
  | true =>
    rw [hostWrite_busy r v s hb, writeBusy_frame]
    exact .inl rfl
  | false =>
    rw [hostWrite_idle r v s hb]
    cases r
    case pbData =>
      rcases Nat.lt_or_ge s.bufBytes (s.pbAddr.toNat + 4) with hout | hin
      · exact .inl (by rw [writeIdle, writePbData_outside v s hout]; rfl)
      · exact .inr ⟨rfl, rfl, hin, by rw [writeIdle, writePbData_inside v s hin]; rfl⟩
    case cbData => exact .inl (by rw [writeIdle, writeCbData_frame]; rfl)
    all_goals exact .inl rfl

/-- The host's write of CB_DATA to an idle machine, as a step. -/
theorem step_writes_cbData {s : State} {v : Word} {rest : List Move} (hidle : s.status.busy = false)
    (h : HostWrites s 0x34 v rest) : step s = .next ((writeCbData v (withAgenda s rest)).answer .done) :=
  step_hostWrites_idle s 0x34 v rest h (by decide) rfl hidle

/-- The host's write of PB_DATA to an idle machine, as a step. -/
theorem step_writes_pbData {s : State} {v : Word} {rest : List Move} (hidle : s.status.busy = false)
    (h : HostWrites s 0x3C v rest) : step s = .next ((writePbData v (withAgenda s rest)).answer .done) :=
  step_hostWrites_idle s 0x3C v rest h (by decide) rfl hidle

/-- The host's read of CB_DATA from an idle machine, as a step. -/
theorem step_reads_cbData {s : State} {rest : List Move} (hidle : s.status.busy = false) (h : HostReads s 0x34 rest) :
    step s = .next (readCbData (withAgenda s rest)) :=
  step_hostReads_idle s 0x34 rest h (by decide) rfl hidle

/-- The host's read of PB_DATA from an idle machine, as a step. -/
theorem step_reads_pbData {s : State} {rest : List Move} (hidle : s.status.busy = false) (h : HostReads s 0x3C rest) :
    step s = .next (readPbData (withAgenda s rest)) :=
  step_hostReads_idle s 0x3C rest h (by decide) rfl hidle

/-- The four bytes of a word just written, the lowest first, and every other byte as before (20_memory.md R62). -/
theorem Memory.writeWord_stores (m : Memory) (a : Nat) (v : Word) :
    (∀ i, i < 4 → (m.writeWord a v).readByte (a + i) = v.extractLsb' (8 * i) 8) ∧
      (∀ b, b < a ∨ a + 4 ≤ b → (m.writeWord a v).readByte b = m.readByte b) := by
  refine ⟨fun i hi => ?_, fun b hb => ?_⟩
  · rw [Memory.readByte_writeWord, if_pos (by omega), Nat.add_sub_cancel_left]
  · rw [Memory.readByte_writeWord, if_neg (by omega)]

/-- A word-aligned address is kept whole by an address register (10_state.md R34). -/
theorem addrOfIndex_indexOfAddr_of_aligned (a : Word) (h : a.toNat % 4 = 0) : addrOfIndex (indexOfAddr a) = a := by
  apply BitVec.eq_of_toNat_eq
  rw [addrOfIndex_toNat, portOffset, indexOfAddr, BitVec.extractLsb'_toNat, Nat.shiftRight_eq_div_pow]
  omega

/-- Two runs, one after the other. -/
theorem runs_add {j k : Nat} {s t u : State} (hj : runs j s = .next t) (hk : runs k t = .next u) :
    runs (j + k) s = .next u := by
  induction j generalizing s with
  | zero =>
    cases hj
    rwa [Nat.zero_add]
  | succ j ih =>
    obtain ⟨w, hw, hj'⟩ := runs_succ_next j s t hj
    rw [Nat.succ_add, runs_succ _ s w hw]
    exact ih hj'

/-- `s` after the host's write of `a` to CB_ADDR, with `rest` still to come. -/
def cbAddressed (s : State) (a : Word) (rest : List Move) : State :=
  { s with agenda := rest, cbIndex := indexOfAddr a, answers := .done :: s.answers }

/-- The host's write of CB_ADDR to an idle machine, as a step. -/
theorem step_writes_cbAddr {s : State} {a : Word} {rest : List Move} (hidle : s.status.busy = false)
    (h : HostWrites s 0x30 a rest) : step s = .next (cbAddressed s a rest) :=
  step_hostWrites_idle s 0x30 a rest h (by decide) rfl hidle

/-- The address written is the address the port then has. -/
theorem cbAddressed_cbAddr (s : State) (a : Word) (rest : List Move) (h : a.toNat % 4 = 0) :
    (cbAddressed s a rest).cbAddr = a :=
  addrOfIndex_indexOfAddr_of_aligned a h

section AtAnAddress

variable {s : State} {a : Word} {rest : List Move} (hidle : s.status.busy = false) (h4 : a.toNat % 4 = 0)
  (hin : a.toNat + 4 ≤ s.bufBytes)

include hidle h4 hin

/-- The host sets CB_ADDR and stores a word through CB_DATA. -/
theorem runs_storesWord {v : Word}
    (h : s.agenda = .host (.write (s.cfg.devBase + 0x30) 4 a) :: .host (.write (s.cfg.devBase + 0x34) 4 v) :: rest) :
    runs 2 s =
      .next { s with
        agenda := rest, cbuf := s.cbuf.writeWord a.toNat v, cbIndex := indexOfAddr a + 1
        answers := .done :: .done :: s.answers } := by
  have haddr := cbAddressed_cbAddr s a rest h4
  have hstore : step (cbAddressed s a (.host (.write (s.cfg.devBase + 0x34) 4 v) :: rest)) =
      .next ((writeCbData v (cbAddressed s a rest)).answer .done) := step_writes_cbData hidle rfl
  rw [runs_succ 1 s _ (step_writes_cbAddr hidle h), runs_succ 0 _ _ hstore, runs_zero,
    writeCbData_inside v _ (haddr.symm ▸ hin), haddr]
  rfl

/-- The host sets CB_ADDR and loads a word through CB_DATA. -/
theorem runs_loadsWord
    (h : s.agenda = .host (.write (s.cfg.devBase + 0x30) 4 a) :: .host (.read (s.cfg.devBase + 0x34) 4) :: rest) :
    runs 2 s =
      .next { s with
        agenda := rest, cbIndex := indexOfAddr a + 1
        answers := .data (s.cbuf.readWord a.toNat) :: .done :: s.answers } := by
  have haddr := cbAddressed_cbAddr s a rest h4
  have hload : step (cbAddressed s a (.host (.read (s.cfg.devBase + 0x34) 4) :: rest)) =
      .next (readCbData (cbAddressed s a rest)) := step_reads_cbData hidle rfl
  rw [runs_succ 1 s _ (step_writes_cbAddr hidle h), runs_succ 0 _ _ hload, runs_zero,
    readCbData_inside _ (haddr.symm ▸ hin), haddr]
  rfl

end AtAnAddress

/-- CB_DATA stands at offset 0x34 alone (10_state.md R24). -/
theorem eq_of_regAt_eq_cbData {off : Nat} (h : regAt off = .cbData) : off = 0x34 := by
  unfold regAt at h
  split at h <;> simp at h ⊢

end HostBuffers

section Invariant

/-- The relations of 10_state.md R26 are about BUSY, DONE, ERR and ERRCODE alone; a host write keeps them. -/
theorem hostWrite_statusConsistent (r : Reg) (v : Word) (s : State) (h : StatusConsistent s.status) :
    StatusConsistent (hostWrite r v s).status := by
  cases hb : s.status.busy with
  | true =>
    rw [hostWrite_busy r v s hb, writeBusy_frame]
    exact h
  | false =>
    rw [hostWrite_idle r v s hb]
    cases r
    case cmd => exact s.status.accepted_consistent
    case cbData => rw [writeIdle, writeCbData_frame]; exact h
    case pbData => rw [writeIdle, writePbData_frame]; exact h
    all_goals exact h

/-- A host read only adds draws. -/
theorem draws_le_hostRead_draws (r : Reg) (s : State) : s.draws ≤ (hostRead r s).draws := by
  cases hb : s.status.busy with
  | true =>
    rw [hostRead_busy r s hb]
    cases r <;> simp [readBusy]
  | false =>
    rw [hostRead_idle r s hb]
    cases r
    case cbData => simp only [readIdle, readCbData]; split <;> exact le_rfl
    case pbData => simp only [readIdle, readPbData]; split <;> exact le_rfl
    all_goals exact le_rfl

/-- What is enough for a state after one that meets the invariant: the parameters and the buffers' epochs stay, draws are only
added, and the clauses about STATUS, the cells and OUTLEN are seen to. -/
theorem inv_of_inv {s t : State} (h : Inv s) (hcfg : t.cfg = s.cfg) (hstatus : StatusConsistent t.status)
    (hcbuf : BufferOk s.bufBytes t.cbuf ∧ t.cbuf.epoch = s.cbuf.epoch)
    (hpbuf : BufferOk s.bufBytes t.pbuf ∧ t.pbuf.epoch = s.pbuf.epoch) (houtlen : t.outlen.toNat ≤ s.bufBytes)
    (hdraws : s.draws ≤ t.draws) : Inv t := by
  have hn : t.bufBytes = s.bufBytes := by rw [State.bufBytes_eq, State.bufBytes_eq, hcfg]
  obtain ⟨hc, hp, hne⟩ := h.fresh
  constructor
  case status => exact hstatus
  case cbuf => exact hn ▸ hcbuf.1
  case pbuf => exact hn ▸ hpbuf.1
  case outlen => exact hn ▸ houtlen
  case fresh =>
    rw [hcbuf.2, hpbuf.2]
    exact ⟨hc.trans_le hdraws, hp.trans_le hdraws, hne⟩

/-- The invariant does not speak of the agenda. -/
theorem withAgenda_keeps_inv {s : State} (h : Inv s) (rest : List Move) : Inv (withAgenda s rest) :=
  ⟨h.status, h.cbuf, h.pbuf, h.outlen, h.fresh⟩

/-- Every command keeps the invariant. -/
theorem exec_keeps_inv {i : Instr} {s t : State} (h : Inv s) (he : exec i s = .next t) : Inv t := by
  obtain ⟨u, code, hexec, hw⟩ := exec_completes i s
  obtain ⟨_, hexec', hb⟩ := exec_writesInBounds i s
  cases he.symm.trans hexec
  cases he.symm.trans hexec'
  have hcfg : u.cfg = s.cfg := by rw [hw.frame]
  have hcbuf : u.cbuf = s.cbuf := by rw [hw.frame]
  refine inv_of_inv h hcfg (u.status.completed_consistent code) ?_ ?_ ?_ hb.draws
  · exact ⟨hcbuf ▸ h.cbuf, congrArg _ hcbuf⟩
  · rcases hb.pbuf with hp | ⟨bytes, hlen, hle, hp⟩
    · rw [hp]
      exact ⟨h.pbuf, rfl⟩
    · rw [hp]
      exact ⟨Memory.bufferOk_writeBytes _ _ 0 bytes (by omega) h.pbuf, Memory.writeBytes_epoch _ 0 bytes⟩
  · rcases hb.outlen with ho | ho
    · rw [ho]
      exact h.outlen
    · exact ho

/-- The engine step keeps the invariant, the latched word legal or not. -/
theorem engineStep_keeps_inv {s t : State} (h : Inv s) (he : engineStep s = .next t) : Inv t := by
  rcases engineStep_cases s with ⟨i, hi⟩ | hi
  · exact exec_keeps_inv h (hi.symm.trans he)
  · rw [hi] at he
    cases he
    exact ⟨s.status.completed_consistent _, h.cbuf, h.pbuf, h.outlen, h.fresh⟩

/-- A host read keeps the invariant. -/
theorem hostRead_keeps_inv (r : Reg) {s : State} (h : Inv s) : Inv (hostRead r s) := by
  have hdraws := draws_le_hostRead_draws r s
  rw [hostRead_frame]
  exact inv_of_inv h rfl h.status ⟨h.cbuf, rfl⟩ ⟨h.pbuf, rfl⟩ h.outlen hdraws

/-- A host write keeps the invariant. -/
theorem hostWrite_keeps_inv (r : Reg) (v : Word) {s : State} (h : Inv s) : Inv (hostWrite r v s) := by
  have hf := hostWrite_frame r v s
  have hcfg : (hostWrite r v s).cfg = s.cfg := by rw [hf]
  have houtlen : (hostWrite r v s).outlen = s.outlen := by rw [hf]
  have hdraws : (hostWrite r v s).draws = s.draws := by rw [hf]
  refine inv_of_inv h hcfg (hostWrite_statusConsistent r v s h.status) ?_ ?_ (houtlen ▸ h.outlen) hdraws.ge
  · rcases hostWrite_cbuf_cases r v s with hc | ⟨-, -, hin, hc⟩
    · rw [hc]
      exact ⟨h.cbuf, rfl⟩
    · rw [hc]
      exact ⟨Memory.bufferOk_writeWord _ _ _ v hin h.cbuf, Memory.writeBytes_epoch _ _ _⟩
  · rcases hostWrite_pbuf_cases r v s with hp | ⟨-, -, hin, hp⟩
    · rw [hp]
      exact ⟨h.pbuf, rfl⟩
    · rw [hp]
      exact ⟨Memory.bufferOk_writeWord _ _ _ v hin h.pbuf, Memory.writeBytes_epoch _ _ _⟩

/-- The state after a reset event meets the invariant, whatever the state before. -/
theorem resetEvent_inv (s : State) : Inv (resetEvent s) where
  status := by simp [StatusConsistent, resetEvent, State.resetAt, Status.zero]
  cbuf := ⟨rfl, rfl⟩
  pbuf := ⟨rfl, rfl⟩
  outlen := Nat.zero_le _
  fresh := by simp [resetEvent, State.resetAt]

end Invariant

section Transactions

/-- A misaccess faults (20_memory.md R64). -/
theorem hostStep_of_misaccess {t : Transaction} {s : State} (h : Misaccess s.cfg t) : hostStep t s = .fault .busError := by
  obtain ⟨hge, hlt, hbad⟩ := h
  rcases hostStep_cases t s with ⟨off, -, h4, rfl, -⟩ | ⟨off, v, -, h4, rfl, -⟩ | ⟨-, hs⟩ | ⟨hout, -⟩
  · simp [accessSize, Transaction.address, h4] at hbad
  · simp [accessSize, Transaction.address, h4] at hbad
  · exact hs
  · omega

/-- An access that begins outside the window is answered, and nothing else happens (20_memory.md R77; log 8). -/
theorem hostStep_outside {t : Transaction} {s : State} (h : t.address < s.cfg.devBase ∨ s.cfg.devBase + 256 ≤ t.address) :
    hostStep t s = .next (s.answer .unclaimed) := by
  rcases windowOffset_cases s.cfg t.address with ⟨off, hlt, haddr, -⟩ | ⟨-, hnone⟩
  · omega
  · simp [hostStep, hnone]

/-- A move that is not orderly is a misaccess of the host. -/
theorem misaccess_of_not_orderly {c : Config} {m : Move} (h : ¬Orderly c m) : ∃ t, m = .host t ∧ Misaccess c t := by
  cases m with
  | host t => exact ⟨t, rfl, not_not.1 h⟩
  | engine => exact absurd trivial h
  | reset => exact absurd trivial h

/-- `t` differs from `s` in OVR, BERR and the model's own `agenda`, `answers` and `draws` alone: the command in flight, its
operands and both buffers are the same (20_memory.md R75). -/
def KeepsCommand (s t : State) : Prop :=
  t = { s with
    agenda := t.agenda, answers := t.answers, draws := t.draws
    status := { s.status with ovr := t.status.ovr, berr := t.status.berr } }

theorem KeepsCommand.refl (s : State) : KeepsCommand s s := rfl

theorem KeepsCommand.withAgenda (s : State) (rest : List Move) : KeepsCommand s (withAgenda s rest) := rfl

theorem KeepsCommand.trans {s t u : State} (hst : KeepsCommand s t) (htu : KeepsCommand t u) : KeepsCommand s u := by
  unfold KeepsCommand at htu ⊢
  rw [htu, hst]

theorem KeepsCommand.busy {s t : State} (h : KeepsCommand s t) : t.status.busy = s.status.busy := by rw [h]

theorem KeepsCommand.cfg {s t : State} (h : KeepsCommand s t) : t.cfg = s.cfg := by rw [h]

/-- What a host read can do while BUSY: an answer, and a draw for it (70_reset_and_hazards.md R224). -/
theorem readBusy_frame (r : Reg) (s : State) :
    readBusy r s = { s with draws := (readBusy r s).draws, answers := (readBusy r s).answers } := by
  cases r <;> rfl

/-- A transaction that is no misaccess keeps the command in flight. -/
theorem hostStep_keepsCommand (t : Transaction) (s : State) (hbusy : s.status.busy = true) (h : ¬Misaccess s.cfg t) :
    ∃ u, hostStep t s = .next u ∧ u.agenda = s.agenda ∧ KeepsCommand s u := by
  rcases hostStep_cases t s with ⟨off, -, -, -, hs⟩ | ⟨off, v, -, -, -, hs⟩ | ⟨hm, -⟩ | ⟨-, hs⟩
  · rw [hostRead_busy _ s hbusy, readBusy_frame] at hs
    exact ⟨_, hs, rfl, rfl⟩
  · rw [hostWrite_busy _ v s hbusy, writeBusy_frame] at hs
    exact ⟨_, hs, rfl, rfl⟩
  · exact absurd hm h
  · exact ⟨_, hs, rfl, rfl⟩

/-- Any sequence of transactions that are no misaccess keeps the command in flight, by induction on the sequence. -/
theorem runs_host_keepsCommand (ts : List Transaction) (rest : List Move) (s : State) (hbusy : s.status.busy = true)
    (hagenda : s.agenda = ts.map Move.host ++ rest) (h : ∀ t ∈ ts, ¬Misaccess s.cfg t) :
    ∃ u, runs ts.length s = .next u ∧ u.agenda = rest ∧ KeepsCommand s u := by
  induction ts generalizing s with
  | nil => exact ⟨s, runs_zero s, hagenda, .refl s⟩
  | cons t ts ih =>
    obtain ⟨u, hu, hrest, hk⟩ := hostStep_keepsCommand t (withAgenda s (ts.map Move.host ++ rest)) hbusy
      (h t (List.mem_cons_self ..))
    obtain ⟨w, hw, hwrest, hwk⟩ := ih u (hk.busy.trans hbusy) hrest fun t' ht' => by
      rw [hk.cfg]
      exact h t' (List.mem_cons_of_mem t ht')
    have hstep : step s = .next u := (step_cons s _ _ hagenda).trans hu
    exact ⟨w, (runs_succ _ s u hstep).trans hw, hwrest, (KeepsCommand.withAgenda s _).trans (hk.trans hwk)⟩

end Transactions

end Sys2Proof.Machine

namespace Sys2Proof.Proofs

open Sys2Proof.Machine Sys2Proof.Safety

/-- Settles O27, by what each kind of step keeps: the engine's, the host's reads and writes, and reset, which needs nothing. -/
theorem stepKeepsTheInvariant : Obligations.StepKeepsTheInvariant := by
  intro s t h hstep
  rcases step_cases s with ⟨-, -, hs⟩ | ⟨-, -, hs⟩ | ⟨off, rest, -, -, -, hs⟩ | ⟨off, v, rest, -, -, -, hs⟩ |
    ⟨x, rest, -, -, hs⟩ | ⟨x, rest, -, -, hs⟩ | ⟨rest, -, hs⟩
  all_goals rw [hs] at hstep
  · cases hstep
    exact withAgenda_keeps_inv h _
  · exact engineStep_keeps_inv (withAgenda_keeps_inv h _) hstep
  · cases hstep
    exact hostRead_keeps_inv _ (withAgenda_keeps_inv h rest)
  · cases hstep
    exact hostWrite_keeps_inv _ v (withAgenda_keeps_inv h rest)
  · cases hstep
  · cases hstep
    exact ⟨h.status, h.cbuf, h.pbuf, h.outlen, h.fresh⟩
  · cases hstep
    exact resetEvent_inv _

/-- Settles O24: among the steps only a host write can change CBUF, and only at CB_DATA while idle, besides reset. -/
theorem onlyTheHostWritesCbuf : Obligations.OnlyTheHostWritesCbuf := by
  intro s t hstep hne
  rcases step_cases s with ⟨-, -, hs⟩ | ⟨-, -, hs⟩ | ⟨off, rest, -, -, -, hs⟩ | ⟨off, v, rest, -, -, hw, hs⟩ |
    ⟨x, rest, -, -, hs⟩ | ⟨x, rest, -, -, hs⟩ | ⟨rest, ha, -⟩
  case inr.inr.inr.inr.inr.inr => exact .inr ⟨rest, ha⟩
  all_goals rw [hs] at hstep
  · cases hstep
    exact absurd rfl hne
  · exact absurd (engineStep_keeps_cbuf hstep) hne
  · cases hstep
    rw [hostRead_frame] at hne
    exact absurd rfl hne
  · cases hstep
    rcases hostWrite_cbuf_cases (regAt off) v (withAgenda s rest) with hc | ⟨hidle, hr, -, -⟩
    · exact absurd hc hne
    · obtain rfl := eq_of_regAt_eq_cbData hr
      exact .inl ⟨hidle, v, rest, hw⟩
  · cases hstep
  · cases hstep
    exact absurd rfl hne

/-- Settles O25: the bytes a command writes to PBUF are LEN many from offset 0, and `exec_completes` says which commands write
there. -/
theorem commandsWritePbufBelowLenOnly : Obligations.CommandsWritePbufBelowLenOnly := by
  intro i s t h
  obtain ⟨u, code, hexec, hw⟩ := exec_completes i s
  obtain ⟨_, hexec', hb⟩ := exec_writesInBounds i s
  cases h.symm.trans hexec
  cases h.symm.trans hexec'
  refine ⟨fun a ha => ?_, fun hdecbuf hsearch => ?_⟩
  · rcases hb.pbuf with hp | ⟨bytes, hlen, -, hp⟩
    · rw [hp]
    · rw [hp, Memory.readByte_writeBytes_outside]
      omega
  · by_contra hne
    rcases hw.pbuf hne with hi | hi
    · exact hdecbuf hi
    · exact hsearch hi

/-- Settles O33, for each port inside and outside its buffer. -/
theorem portWriteStoresTheWord : Obligations.PortWriteStoresTheWord := by
  refine ⟨fun s v rest hidle h => ?_, fun s v rest hidle h => ?_⟩
  · rw [step_writes_cbData hidle h]
    rcases Nat.lt_or_ge s.bufBytes (s.cbAddr.toNat + 4) with hout | hin
    · rw [writeCbData_outside v (withAgenda s rest) hout]
      exact ⟨_, rfl, addrOfIndex_succ _, fun hin => absurd hout hin.not_gt, fun _ => rfl⟩
    · rw [writeCbData_inside v (withAgenda s rest) hin]
      obtain ⟨hbytes, hothers⟩ := s.cbuf.writeWord_stores s.cbAddr.toNat v
      exact ⟨_, rfl, addrOfIndex_succ _, fun _ => ⟨hbytes, hothers, rfl⟩, fun hout => absurd hout hin.not_gt⟩
  · rw [step_writes_pbData hidle h]
    rcases Nat.lt_or_ge s.bufBytes (s.pbAddr.toNat + 4) with hout | hin
    · rw [writePbData_outside v (withAgenda s rest) hout]
      exact ⟨_, rfl, addrOfIndex_succ _, fun hin => absurd hout hin.not_gt, fun _ => rfl⟩
    · rw [writePbData_inside v (withAgenda s rest) hin]
      obtain ⟨hbytes, hothers⟩ := s.pbuf.writeWord_stores s.pbAddr.toNat v
      exact ⟨_, rfl, addrOfIndex_succ _, fun _ => ⟨hbytes, hothers, rfl⟩, fun hout => absurd hout hin.not_gt⟩

/-- Settles O34, for each port inside and outside its buffer; the word's value is `wordOfBytes_toNat`. -/
theorem portReadReturnsTheWord : Obligations.PortReadReturnsTheWord := by
  refine ⟨fun s rest hidle h => ?_, fun s rest hidle h => ?_⟩
  · rw [step_reads_cbData hidle h]
    rcases Nat.lt_or_ge s.bufBytes (s.cbAddr.toNat + 4) with hout | hin
    · rw [readCbData_outside (withAgenda s rest) hout]
      exact ⟨_, 0, rfl, addrOfIndex_succ _, fun hin => absurd hout hin.not_gt, fun _ => ⟨rfl, rfl⟩⟩
    · rw [readCbData_inside (withAgenda s rest) hin]
      exact ⟨_, s.cbuf.readWord s.cbAddr.toNat, rfl, addrOfIndex_succ _,
        fun _ => ⟨wordOfBytes_toNat _ _ _ _, rfl⟩, fun hout => absurd hout hin.not_gt⟩
  · rw [step_reads_pbData hidle h]
    rcases Nat.lt_or_ge s.bufBytes (s.pbAddr.toNat + 4) with hout | hin
    · rw [readPbData_outside (withAgenda s rest) hout]
      exact ⟨_, 0, rfl, addrOfIndex_succ _, fun hin => absurd hout hin.not_gt, fun _ => ⟨rfl, rfl⟩⟩
    · rw [readPbData_inside (withAgenda s rest) hin]
      exact ⟨_, s.pbuf.readWord s.pbAddr.toNat, rfl, addrOfIndex_succ _,
        fun _ => ⟨wordOfBytes_toNat _ _ _ _, rfl⟩, fun hout => absurd hout hin.not_gt⟩

/-- Settles O35: a store and a load at the same address of CBUF, two steps each. -/
theorem storedWordsReadBackThroughThePort : Obligations.StoredWordsReadBackThroughThePort := by
  intro s a v hidle h4 hin hagenda
  refine ⟨_, runs_add (runs_storesWord hidle h4 hin hagenda) (runs_loadsWord hidle h4 hin rfl), ?_, ?_, rfl⟩
  · simp only [Memory.readWord_writeWord]
  · exact (addrOfIndex_succ _).trans (congrArg (· + 4) (addrOfIndex_indexOfAddr_of_aligned a h4))

/-- Settles O38: a misaccess faults, and a step whose move is none goes through. -/
theorem busErrorsAreTheMisaccesses : Obligations.BusErrorsAreTheMisaccesses := by
  intro s
  by_cases hm : ∃ t rest, s.agenda = .host t :: rest ∧ Misaccess s.cfg t
  · have hf : step s = .fault .busError := by
      obtain ⟨t, rest, ha, ht⟩ := hm
      exact (step_cons s _ rest ha).trans (hostStep_of_misaccess (s := withAgenda s rest) ht)
    exact ⟨iff_of_true hf hm, .inr hf⟩
  · have horderly : ∀ m ∈ s.agenda.head?, Orderly s.cfg m := by
      intro m hhead
      by_contra hno
      obtain ⟨t, rfl, ht⟩ := misaccess_of_not_orderly hno
      obtain ⟨rest, ha⟩ := List.head?_eq_some_iff.1 hhead
      exact hm ⟨t, rest, ha, ht⟩
    obtain ⟨t, hs⟩ := step_next_of_orderly s horderly
    exact ⟨iff_of_false (by simp [hs]) hm, .inl ⟨t, hs⟩⟩

/-- Settles O42: the induction over the transactions is `runs_host_keepsCommand`. -/
theorem hostCannotChangeACommandInFlight : Obligations.HostCannotChangeACommandInFlight := by
  intro ts rest s hbusy hagenda h
  obtain ⟨t, hruns, rfl, hk⟩ := runs_host_keepsCommand ts rest s hbusy hagenda h
  exact ⟨t, hruns, hk⟩

/-- Settles O39: the address is looked up and not found in the window. -/
theorem addressesOutsideTheWindowDoNothing : Obligations.AddressesOutsideTheWindowDoNothing := by
  intro s t rest ha hout
  exact (step_cons s _ rest ha).trans (hostStep_outside (s := withAgenda s rest) (by simp only [withAgenda_cfg]; omega))

end Sys2Proof.Proofs

/-!
Decoding and encoding as inverses (30_encoding.md R90 to R96): both are seen through the fields of format C, which determine the
word, and legal fields (R93) are those of a command.
-/

namespace Sys2Proof.Machine

open Sys2Proof.Safety

section Encoding

/-- The three fields of format C are all the bits of the word (30_encoding.md R90). -/
theorem append_fieldsOf (w : Word) : (fieldsOf w).rsv ++ (fieldsOf w).imm8 ++ (fieldsOf w).op = w := by
  have hhigh : (fieldsOf w).rsv ++ (fieldsOf w).imm8 = w.extractLsb' 8 24 :=
    BitVec.extractLsb'_append_extractLsb'_eq_extractLsb' rfl
  rw [hhigh]
  exact (BitVec.extractLsb'_append_extractLsb'_eq_extractLsb' rfl).trans BitVec.extractLsb'_eq_self

theorem fieldsOf_injective : Function.Injective fieldsOf := by
  intro v w h
  rw [← append_fieldsOf v, h, append_fieldsOf]

/-- The fields of a command's word are the command's. -/
theorem fieldsOf_encode (i : Instr) : fieldsOf (encode i) = i.fields := by
  cases i with
  | kexp b => exact (Laws.EncodedFields.kexp b).1
  | decb => exact Laws.EncodedFields.decb.1
  | decbuf => exact Laws.EncodedFields.decbuf.1
  | score => exact Laws.EncodedFields.score.1
  | strip => exact Laws.EncodedFields.strip.1
  | search => exact Laws.EncodedFields.search.1

/-- The opcode map takes a command's own fields to the command (30_encoding.md R92). -/
theorem decodeFields_fields (i : Instr) : decodeFields i.fields = .command i := by
  cases i <;> rfl

/-- Legal fields are the fields of a command: the opcode names it, and IMM8 is its byte or 0 (30_encoding.md R92, R93). -/
theorem exists_eq_fields_of_legal (f : CommandFields) (h : f.legal = true) : ∃ i : Instr, f = i.fields := by
  obtain ⟨op, imm8, rsv⟩ := f
  obtain ⟨rfl, hop, himm⟩ := (legal_iff _).1 h
  have himm0 (hne : op ≠ 0x01) : imm8 = 0 := himm.resolve_left hne
  rcases (assigned_opcode_iff op).1 hop with rfl | rfl | rfl | rfl | rfl | rfl
  · exact ⟨.kexp imm8, rfl⟩
  · exact ⟨.decb, by rw [himm0 (by decide)]; rfl⟩
  · exact ⟨.decbuf, by rw [himm0 (by decide)]; rfl⟩
  · exact ⟨.score, by rw [himm0 (by decide)]; rfl⟩
  · exact ⟨.strip, by rw [himm0 (by decide)]; rfl⟩
  · exact ⟨.search, by rw [himm0 (by decide)]; rfl⟩

/-- Fields decode to a command exactly when they are the command's. -/
theorem decodeFields_eq_command_iff (f : CommandFields) (i : Instr) :
    decodeFields f = .command i ↔ f = i.fields := by
  refine ⟨fun h => ?_, fun h => h ▸ decodeFields_fields i⟩
  obtain ⟨j, rfl⟩ := exists_eq_fields_of_legal f (legal_of_decodeFields_eq_command f i h)
  rw [decodeFields_fields, Decoded.command.injEq] at h
  rw [h]

/-- A word decodes to a command exactly when it is the command's word. -/
theorem decode_eq_command_iff (w : Word) (i : Instr) : decode w = .command i ↔ w = encode i := by
  rw [decode, decodeFields_eq_command_iff, ← fieldsOf_encode, fieldsOf_injective.eq_iff]

theorem decode_encode (i : Instr) : decode (encode i) = .command i := (decode_eq_command_iff _ i).2 rfl

theorem encode_injective : Function.Injective encode := by
  intro i j h
  have hd : Decoded.command i = .command j := by rw [← decode_encode i, h, decode_encode]
  exact Decoded.command.inj hd

/-- The words of R93's formula are those that decode to a command. -/
theorem legalWord_iff_decodes (w : Word) : LegalWord w ↔ ∃ i, decode w = .command i := by
  rw [legalWord_iff_legal_fieldsOf]
  constructor
  · intro h
    obtain ⟨i, hi⟩ := exists_eq_fields_of_legal _ h
    exact ⟨i, (decodeFields_eq_command_iff _ i).2 hi⟩
  · rintro ⟨i, hi⟩
    exact legal_of_decodeFields_eq_command _ i hi

end Encoding

section LegalWords

/-- All commands, KEXP by its bytes and then the others, in the order of 30_encoding.md R93's list. -/
def allCommands : List Instr :=
  (List.finRange 256).map (fun b => .kexp (BitVec.ofFin b)) ++ [.decb, .decbuf, .score, .strip, .search]

theorem mem_allCommands (i : Instr) : i ∈ allCommands := by
  cases i with
  | kexp b => exact List.mem_append_left _ (List.mem_map.2 ⟨b.toFin, List.mem_finRange _, rfl⟩)
  | _ => simp [allCommands]

theorem allCommands_nodup : allCommands.Nodup := by
  have hkexp : Function.Injective (fun b : Fin 256 => Instr.kexp (BitVec.ofFin b)) := by
    intro b c h
    simpa using h
  refine List.Nodup.append ((List.nodup_finRange 256).map hkexp) (by decide) ?_
  simp [List.disjoint_left]

/-- The word of KEXP is `0x0000bb01` (30_encoding.md R93, R96). -/
theorem encode_kexp_ofFin (b : Fin 256) : encode (.kexp (BitVec.ofFin b)) = BitVec.ofNat 32 (b * 256 + 1) := by
  apply fieldsOf_injective
  rw [fieldsOf_encode, Instr.fields, fieldsOf, CommandFields.mk.injEq]
  refine ⟨BitVec.eq_of_toNat_eq ?_, BitVec.eq_of_toNat_eq ?_, BitVec.eq_of_toNat_eq ?_⟩ <;>
    simp [Nat.shiftRight_eq_div_pow] <;> omega

/-- R93's list is the list of the commands' words. -/
theorem legalWords_eq_map_encode : legalWords = allCommands.map encode := by
  rw [legalWords, allCommands, List.map_append, List.map_map, ← List.map_coe_finRange_eq_range, List.map_map]
  have hkexp : (encode ∘ fun b : Fin 256 => Instr.kexp (BitVec.ofFin b)) =
      (fun b => BitVec.ofNat 32 (b * 256 + 1)) ∘ Fin.val := funext encode_kexp_ofFin
  rw [hkexp]
  rfl

theorem mem_legalWords_iff (w : Word) : w ∈ legalWords ↔ ∃ i, w = encode i := by
  simp only [legalWords_eq_map_encode, List.mem_map, mem_allCommands, true_and, eq_comm]

end LegalWords

end Sys2Proof.Machine

namespace Sys2Proof.Proofs

open Sys2Proof.Machine Sys2Proof.Safety

/-- Settles O2: the word and the command have the same fields, and the fields determine both. -/
theorem decodeAgreesWithEncode : Obligations.DecodeAgreesWithEncode :=
  fun i _ w => decode_eq_command_iff w i

/-- Settles O3: each of the three descriptions is "the word of a command", and `encode` repeats no word. -/
theorem legalWordsAreTheListedOnes : Obligations.LegalWordsAreTheListedOnes := by
  refine ⟨fun w => (legalWord_iff_decodes w).symm, fun w => ?_, ?_, ?_⟩
  · simp only [legalWord_iff_decodes, decode_eq_command_iff, mem_legalWords_iff]
  · rw [legalWords_eq_map_encode]
    exact allCommands_nodup.map encode_injective
  · simp [legalWords]

/-- Settles O6: the engine has the turn, and the completion of an illegal word writes those four fields. -/
theorem illegalWordChangesStatusAlone : Obligations.IllegalWordChangesStatusAlone := by
  refine ⟨fun s hagenda hbusy hl => ?_, rfl, by unfold LegalWord; decide, by unfold LegalWord; decide⟩
  rw [step_nil s hagenda, engineTurn_busy s hbusy, engineStep_not_legalWord s hl]
  rfl

end Sys2Proof.Proofs

/-!
The cipher (40_cipher.md): the two loops of rounds undo each other, a block at a time and, through DECBUF, a body at a time; and
the words of a command by their opcode.
-/

namespace Sys2Proof.Machine

open Sys2Proof.Safety

section Cipher

/-- The sum goes up by `n + 1` DELTAs when it goes up by one and then by `n` (40_cipher.md R115). -/
theorem add_ofNat_succ_mul_delta (sum : Word) (n : Nat) :
    sum + BitVec.ofNat 32 (n + 1) * delta = sum + delta + BitVec.ofNat 32 n * delta := by
  rw [BitVec.ofNat_add, BitVec.add_mul, BitVec.one_mul, BitVec.add_comm (_ * delta), BitVec.add_assoc]

/-- The sum `n + 1` DELTAs down is one DELTA below the sum `n` down (40_cipher.md R114). -/
theorem sub_ofNat_succ_mul_delta_add (sum : Word) (n : Nat) :
    sum - BitVec.ofNat 32 (n + 1) * delta + delta = sum - BitVec.ofNat 32 n * delta := by
  rw [BitVec.ofNat_add, BitVec.add_mul, BitVec.one_mul, ← BitVec.sub_sub, BitVec.sub_add_cancel]

/-- `n` rounds of encryption are undone by `n` rounds of decryption from the sum they end at: the last round of decryption undoes
the first of encryption. -/
theorem decryptRounds_encryptRounds (k : Key) (n : Nat) (sum : Word) (b : Block) :
    decryptRounds k n (sum + BitVec.ofNat 32 n * delta) (encryptRounds k n sum b) = b := by
  induction n generalizing sum b with
  | zero => rfl
  | succ n ih =>
    rw [decryptRounds_succ_last, add_ofNat_succ_mul_delta, encryptRounds, ih, BitVec.add_sub_cancel,
      decryptRound_encryptRound]

/-- `n` rounds of decryption are undone by `n` rounds of encryption from the sum they end at: the first round of encryption undoes
the last of decryption. -/
theorem encryptRounds_decryptRounds (k : Key) (n : Nat) (sum : Word) (b : Block) :
    encryptRounds k n (sum - BitVec.ofNat 32 n * delta) (decryptRounds k n sum b) = b := by
  induction n with
  | zero => rfl
  | succ n ih =>
    rw [decryptRounds_succ_last, encryptRounds, sub_ofNat_succ_mul_delta_add, encryptRound_decryptRound, ih]

/-- SUM0 is 32 times DELTA (40_cipher.md R114). -/
theorem ofNat_32_mul_delta : BitVec.ofNat 32 32 * delta = sum0 := by decide

/-- The sentence of 40_cipher.md R115. -/
theorem decryptBlock_encryptBlock (b : Block) (k : Key) : decryptBlock (encryptBlock b k) k = b := by
  have h := decryptRounds_encryptRounds k 32 0 b
  rwa [zero_add, ofNat_32_mul_delta] at h

theorem encryptBlock_decryptBlock (b : Block) (k : Key) : encryptBlock (decryptBlock b k) k = b := by
  have h := encryptRounds_decryptRounds k 32 sum0 b
  rwa [ofNat_32_mul_delta, BitVec.sub_self] at h

/-- The loop of 40_cipher.md R114 ends at sum 0 with the model's decryption. -/
theorem decryptLoop_eq (b : Block) (k : Key) : decryptLoop b k = (0, decryptBlock b k) := by
  have h := decryptLoop_iterate k 32 sum0 b
  rwa [ofNat_32_mul_delta, BitVec.sub_self] at h

/-- The loop of 40_cipher.md R115 is the model's encryption. -/
theorem encryptLoop_eq (b : Block) (k : Key) : encryptLoop b k = encryptBlock b k := encryptLoop_iterate k 32 0 b

/-- DECB's next state, STATUS written out (40_cipher.md R117). -/
theorem exec_decb_eq (s : State) :
    exec .decb s = .next { s with blk := decryptBlock s.blk s.key, status := succeeded s.status } := rfl

/-- A repeated byte is a multiple of 0x01010101 (40_cipher.md R116). -/
theorem rep4_eq_ofNat (b : Byte) : rep4 b = BitVec.ofNat 32 (b.toNat * 0x01010101) := by
  have h : (rep4 b).toNat = _ := wordOfBytes_toNat b b b b
  apply BitVec.eq_of_toNat_eq
  rw [h, BitVec.toNat_ofNat]
  omega

/-- What DECBUF writes for a legal body, block by block (41_buffer.md R140). -/
theorem blockAt_write_decryptBody_of_bodyLegal {s : State} (h : BodyLegal s) {j : Nat} (hj : 8 * j < s.len.toNat) :
    blockAt (s.pbuf.writeBytes 0 (decryptBody s.key (s.cbuf.readBytes 0 s.len.toNat))) j =
      decryptBlock (blockAt s.cbuf j) s.key := by
  obtain ⟨-, hmod, -⟩ := h
  obtain ⟨n, hn⟩ := Nat.dvd_of_mod_eq_zero hmod
  rw [hn] at hj ⊢
  exact blockAt_write_decryptBody _ _ _ n j (by omega)

end Cipher

section Opcodes

/-- A word with the opcode of a command is that command exactly when its other two fields are the command's
(30_encoding.md R90, R92). -/
theorem decode_eq_command_iff_of_op {w : Word} {i : Instr} (hop : w.extractLsb' 0 8 = i.fields.op) :
    decode w = .command i ↔ w.extractLsb' 8 8 = i.fields.imm8 ∧ w.extractLsb' 16 16 = i.fields.rsv := by
  rw [decode, decodeFields_eq_command_iff]
  have hfields : fieldsOf w = i.fields ↔ _ := iff_of_eq (CommandFields.mk.injEq ..)
  exact hfields.trans (and_iff_right hop)

end Opcodes

end Sys2Proof.Machine

namespace Sys2Proof.Proofs

open Sys2Proof.Machine Sys2Proof.Safety

/-- Settles O9: the rule's loop is the model's decryption and ends at sum 0. -/
theorem decbDecryptsTheBlock : Obligations.DecbDecryptsTheBlock := by
  refine ⟨fun s => ?_, fun b k => ?_, fun w hop => decode_eq_command_iff_of_op hop⟩
  · rw [decryptLoop_eq, exec_decb_eq]
  · rw [decryptLoop_eq]

/-- Settles O10: decryption runs the rounds of encryption backwards (`decryptRounds_encryptRounds`). -/
theorem decryptionInvertsEncryption : Obligations.DecryptionInvertsEncryption := by
  refine ⟨fun b k => ?_, fun b k => ?_, fun s b hb => ?_⟩
  · rw [encryptLoop_eq, decryptBlock_encryptBlock]
  · rw [encryptLoop_eq, encryptBlock_decryptBlock]
  · rw [exec_decb_eq, hb, encryptLoop_eq, decryptBlock_encryptBlock]

/-- Settles O13: DECBUF decrypts each block on its own, and each is an encrypted one. -/
theorem decbufRecoversAnEncryptedBody : Obligations.DecbufRecoversAnEncryptedBody := by
  refine fun s plain hlegal hcbuf => ⟨_, execDecbuf_legal s hlegal, fun j hj => ?_⟩
  rw [State.complete_pbuf, blockAt_write_decryptBody_of_bodyLegal hlegal hj, hcbuf j hj, encryptLoop_eq,
    decryptBlock_encryptBlock]

/-- Settles O8: the key word is the byte repeated, and IMM8 is free for the opcode of KEXP. -/
theorem kexpExpandsTheKeyByte : Obligations.KexpExpandsTheKeyByte := by
  refine ⟨fun b s => ⟨?_, (BitVec.ofNat_toNat 32 b).symm⟩, fun w hop => ?_⟩
  · simp only [← rep4_eq_ofNat]
    rfl
  · exact (decode_eq_command_iff_of_op hop).trans (and_iff_right rfl)

end Sys2Proof.Proofs

/-!
The buffer commands (41_buffer.md): what DECBUF puts into PBUF byte by byte, SCORE's two forms of the threshold, the padding that
STRIP removes, and the completions of the three.
-/

namespace Sys2Proof.Machine

open Sys2Proof.Safety

section Registers

/-- A 32-bit register holds whole a number that is at most another register's (10_state.md R28). -/
theorem toNat_ofNat_of_le {n : Nat} {w : Word} (h : n ≤ w.toNat) : (BitVec.ofNat 32 n).toNat = n :=
  (BitVec.toNat_ofNat n 32).trans (Nat.mod_eq_of_lt (h.trans_lt w.isLt))

end Registers

section Decryption

/-- DECBUF on a LEN that fails a check raises that check's error (41_buffer.md R141). -/
theorem exec_decbuf_error {s : State} {code : ErrorCode} (hs : s.bodyError = code) (h : code ≠ .none) :
    exec .decbuf s = .next { s with status := failed s.status code } := by
  subst hs
  rw [← Status.completed_error s.status _ h]
  exact execDecbuf_error s h

/-- Each byte DECBUF writes for a legal body is a byte of the decryption of its own block (41_buffer.md R140). -/
theorem readByte_decbuf {s t : State} (h : BodyLegal s) (he : exec .decbuf s = .next t) {i j : Nat}
    (hj : 8 * j < s.len.toNat) (hi : i < 8) :
    some (t.pbuf.readByte (8 * j + i)) = (blockBytes (decryptBlock (blockAt s.cbuf j) s.key))[i]? := by
  obtain rfl := Host.Outcome.next.inj ((execDecbuf_legal s h).symm.trans he)
  obtain ⟨-, hmod, -⟩ := h
  obtain ⟨n, hn⟩ := Nat.dvd_of_mod_eq_zero hmod
  rw [State.complete_pbuf, hn]
  exact readByte_write_decryptBody _ _ _ n j i (by omega) hi

/-- Bytes from LEN on read as before when the plaintext of a legal body is written (20_memory.md R71). -/
theorem readByte_write_decryptBody_of_le (p : Memory) {s : State} (h : BodyLegal s) {a : Nat} (ha : s.len.toNat ≤ a) :
    (p.writeBytes 0 (decryptBody s.key (s.cbuf.readBytes 0 s.len.toNat))).readByte a = p.readByte a := by
  obtain ⟨-, hmod, -⟩ := h
  apply Memory.readByte_writeBytes_outside
  rw [decryptBody_length _ _ _ hmod]
  omega

end Decryption

section Scoring

/-- The printable set by its values (41_buffer.md R142). -/
theorem printable_iff (c : Byte) :
    printable c = true ↔ 0x20 ≤ c.toNat ∧ c.toNat ≤ 0x7E ∨ c.toNat = 0x0A ∨ c.toNat = 0x0D ∨ c.toNat = 0x09 := by
  rw [printable, decide_eq_true_eq]
  simp only [← BitVec.toNat_inj, BitVec.reduceToNat]

theorem printableIn_le (m : Memory) (n : Nat) : printableIn m n ≤ n := by
  have h := printableCount_le (m.readBytes 0 n)
  rwa [printableCount_readBytes, Memory.readBytes_length] at h

/-- More than 70% of a buffer's first bytes are printable (41_buffer.md R143). -/
theorem plausible_readBytes_iff (m : Memory) (n : Nat) :
    plausible (m.readBytes 0 n) = true ↔ printableIn m n * 10 > n * 7 := by
  rw [plausible, printableCount_readBytes, Memory.readBytes_length, decide_eq_true_eq, gt_iff_lt]

end Scoring

section Padding

/-- Padding of `p` bytes of value `p` is what strip_len takes off (41_buffer.md R147). -/
theorem stripLen_append_replicate (s : List Byte) {p : Nat} (h1 : 1 ≤ p) (h8 : p ≤ 8) :
    stripLen (s ++ List.replicate p (BitVec.ofNat 8 p)) = s.length := by
  have hlast : (s ++ List.replicate p (BitVec.ofNat 8 p)).getLast? = some (BitVec.ofNat 8 p) := by
    rw [List.getLast?_append, List.getLast?_replicate, if_neg (by omega), Option.some_or]
  have hval : (BitVec.ofNat 8 p).toNat = p := by rw [BitVec.toNat_ofNat]; omega
  simp [stripLen, hlast, hval, h1, h8]

/-- OUTLEN holds whole the length strip_len gives for the first LEN bytes (41_buffer.md R146). -/
theorem toNat_ofNat_stripLen_readBytes (m : Memory) (len : Word) :
    (BitVec.ofNat 32 (stripLen (m.readBytes 0 len.toNat))).toNat = stripLen (m.readBytes 0 len.toNat) :=
  toNat_ofNat_of_le ((stripLen_le _).trans_eq (m.readBytes_length 0 len.toNat))

end Padding

end Sys2Proof.Machine

namespace Sys2Proof.Proofs

open Sys2Proof.Machine Sys2Proof.Safety

/-- Settles O11: the plaintext is as long as LEN, and each of its blocks is the rule's loop on the ciphertext block. -/
theorem decbufDecryptsTheBody : Obligations.DecbufDecryptsTheBody := by
  refine fun s => ⟨fun hlegal => ⟨_, execDecbuf_legal s hlegal, fun j hj => ?_,
    fun a ha => readByte_write_decryptBody_of_le s.pbuf hlegal ha, rfl⟩, fun hlarge => ?_, fun hfits hlen => ?_,
    fun w hop => decode_eq_command_iff_of_op hop⟩
  · rw [State.complete_pbuf, blockAt_write_decryptBody_of_bodyLegal hlegal hj, decryptLoop_eq]
  · exact exec_decbuf_error (bodyError_too_large s hlarge) (by decide)
  · exact exec_decbuf_error (bodyError_misaligned s hfits hlen) (by decide)

/-- Settles O12: each output byte is a function of its own ciphertext block and the key (`readByte_decbuf`). -/
theorem blocksDoNotChain : Obligations.BlocksDoNotChain := by
  intro s s' t t' hlegal hlegal' hkey he he' j hj hj' hblock i hi
  apply Option.some.inj
  rw [readByte_decbuf hlegal he hj hi, readByte_decbuf hlegal' he' hj' hi, blockAt_congr _ _ j hblock, hkey]

/-- Settles O15: the count is at most LEN, so COUNT holds it whole. -/
theorem scoreCountsPrintableBytes : Obligations.ScoreCountsPrintableBytes := by
  refine fun s => ⟨fun hfits => ⟨_, execScore_legal s hfits, ?_, ?_, ?_, rfl⟩, fun hlarge => execScore_error s hlarge,
    fun w hop => decode_eq_command_iff_of_op hop⟩
  · rw [State.complete_count, printableCount_readBytes]
    exact toNat_ofNat_of_le (printableIn_le _ _)
  · exact plausible_readBytes_iff _ _
  · refine (plausible_readBytes_iff _ _).trans ?_
    omega

/-- Settles O16: strip_len is at most LEN, so OUTLEN holds it whole. -/
theorem stripMeasuresThePadding : Obligations.StripMeasuresThePadding := by
  refine fun s => ⟨fun hfits => ⟨_, execStrip_legal s hfits, ?_, ?_, rfl⟩, fun hlarge => execStrip_error s hlarge,
    fun w hop => decode_eq_command_iff_of_op hop⟩
  · rw [State.complete_outlen, toNat_ofNat_stripLen_readBytes]
    exact stripLen_readBytes _ _
  · exact (ofNat_stripLen_toNat_le _).trans_eq (Memory.readBytes_length _ _ _)

/-- Settles O17: the last byte is the pad count `p`, and the `p` bytes it counts are the appended ones. -/
theorem stripUndoesPadding : Obligations.StripUndoesPadding := by
  refine ⟨fun s p h1 h8 => stripLen_append_replicate s h1 h8, fun st s p h1 h8 hfits hbody => ?_⟩
  refine ⟨_, execStrip_legal st hfits, ?_⟩
  rw [State.complete_outlen, toNat_ofNat_stripLen_readBytes, hbody, stripLen_append_replicate s h1 h8]

/-- Settles O14: the set's values, counted over all 256 bytes. -/
theorem printableBytesAreThe98 : Obligations.PrintableBytesAreThe98 :=
  ⟨printable_iff, rfl⟩

end Sys2Proof.Proofs

/-!
The key search (42_search.md): what Found leaves in PBUF, what Exhausted leaves alone, and Found as four commands in a row.
-/

namespace Sys2Proof.Machine

open Sys2Proof.Safety

section Search

/-- SEARCH on a LEN that fails a check raises that check's error with the verdict cleared (42_search.md R171). -/
theorem exec_search_error {s : State} {code : ErrorCode} (hs : s.bodyError = code) (h : code ≠ .none) :
    exec .search s = .next { s with status := { failed s.status code with plausible := false, found := false } } := by
  subst hs
  rw [← Status.completed_error s.status _ h]
  exact execSearch_error s h

/-- On Found, PBUF[0..LEN) is the trial of the key byte (42_search.md R171). -/
theorem readBytes_searchFound_pbuf {s : State} (h : BodyLegal s) (b : Byte) :
    (s.searchFound b).pbuf.readBytes 0 s.len.toNat = trial s.cipherBody b := by
  rw [← trial_cipherBody_length s b h]
  exact s.pbuf.readBytes_writeBytes 0 _

/-- COUNT on Found is the printable bytes of the PBUF that it comes with (42_search.md R171). -/
theorem toNat_searchFound_count {s : State} (h : BodyLegal s) (b : Byte) :
    (s.searchFound b).count.toNat = printableIn (s.searchFound b).pbuf s.len.toNat := by
  have hcount : (s.searchFound b).count = BitVec.ofNat 32 (printableIn (s.searchFound b).pbuf s.len.toNat) := by
    rw [← printableCount_readBytes, readBytes_searchFound_pbuf h]
    rfl
  rw [hcount]
  exact toNat_ofNat_of_le (printableIn_le _ _)

/-- OUTLEN on Found is strip_len of the PBUF that it comes with (42_search.md R171). -/
theorem isStripLen_searchFound_outlen {s : State} (h : BodyLegal s) (b : Byte) :
    IsStripLen (s.searchFound b).pbuf.readByte s.len.toNat (s.searchFound b).outlen.toNat := by
  have houtlen : (s.searchFound b).outlen =
      BitVec.ofNat 32 (stripLen ((s.searchFound b).pbuf.readBytes 0 s.len.toNat)) := by
    rw [readBytes_searchFound_pbuf h]
    rfl
  rw [houtlen, toNat_ofNat_stripLen_readBytes]
  exact stripLen_readBytes _ _

/-- The unspecified bytes of Exhausted lie below LEN (20_memory.md R71). -/
theorem readByte_searchExhausted_pbuf_of_le {s : State} {a : Nat} (ha : s.len.toNat ≤ a) :
    s.searchExhausted.pbuf.readByte a = s.pbuf.readByte a := by
  apply Memory.readByte_writeBytes_outside
  rw [freeBytes_length]
  exact .inr ((Nat.zero_add _).trans_le ha)

/-- A SEARCH that ends with FOUND set has found the least key byte that passes (42_search.md R172). -/
theorem eq_searchFound_of_found {s t : State} (he : exec .search s = .next t) (hf : t.status.found = true) :
    Passes s t.keyByte ∧ t = s.searchFound t.keyByte ∧ ∀ b, Passes s b → t.keyByte.toNat ≤ b.toNat := by
  rcases execSearch_cases s with ⟨b, -, hp, hleast, h⟩ | ⟨-, -, h⟩ | ⟨-, h⟩ <;>
    obtain rfl := Host.Outcome.next.inj (h.symm.trans he)
  · exact ⟨hp, rfl, fun b' hp' => not_lt.1 fun hlt => hleast b' hlt hp'⟩
  · exact absurd hf Bool.false_ne_true
  · exact absurd hf Bool.false_ne_true

/-- SCORE of a plausible body sets PLAUSIBLE and counts it (41_buffer.md R144). -/
theorem exec_score_of_plausible {s : State} {p : List Byte} (h : s.len.toNat ≤ s.bufBytes)
    (hbody : s.pbuf.readBytes 0 s.len.toNat = p) (hp : plausible p = true) :
    exec .score s =
      .next (State.complete { s.withPlausible true with count := BitVec.ofNat 32 (printableCount p) } .none) := by
  rw [← hp, ← hbody]
  exact execScore_legal s h

/-- STRIP of a body measures it (41_buffer.md R146). -/
theorem exec_strip_of_body {s : State} {p : List Byte} (h : s.len.toNat ≤ s.bufBytes)
    (hbody : s.pbuf.readBytes 0 s.len.toNat = p) :
    exec .strip s = .next (State.complete { s with outlen := BitVec.ofNat 32 (stripLen p) } .none) := by
  rw [← hbody]
  exact execStrip_legal s h

end Search

end Sys2Proof.Machine

namespace Sys2Proof.Proofs

open Sys2Proof.Machine Sys2Proof.Safety

/-- Settles O18: Found writes the decryption of CBUF under the key it reports, and COUNT and OUTLEN are read off that plaintext. -/
theorem searchFindsTheFirstPlausibleKey : Obligations.SearchFindsTheFirstPlausibleKey := by
  refine fun s => ⟨fun b hlegal hp hleast => ?_, fun hlegal hnone => ?_, fun hlarge => ?_, fun hfits hlen => ?_,
    fun w hop => decode_eq_command_iff_of_op hop⟩
  · have hkey : BodyLegal { s with key := expandKey b } := hlegal
    refine ⟨_, execSearch_found s b hlegal hp hleast, fun j hj => ?_,
      fun a ha => readByte_write_decryptBody_of_le s.pbuf hkey ha, rfl, rfl, toNat_searchFound_count hlegal b,
      isStripLen_searchFound_outlen hlegal b, rfl⟩
    rw [decryptLoop_eq]
    exact blockAt_write_decryptBody_of_bodyLegal hkey hj
  · exact ⟨_, execSearch_exhausted s hlegal hnone, fun a ha => readByte_searchExhausted_pbuf_of_le ha, rfl⟩
  · exact exec_search_error (bodyError_too_large s hlarge) (by decide)
  · exact exec_search_error (bodyError_misaligned s hfits hlen) (by decide)

/-- Settles O19: FOUND is set exactly on the way out that a passing key byte opens, and that one reports the least. -/
theorem searchReportsTheLeastKey : Obligations.SearchReportsTheLeastKey := by
  intro s hlegal
  by_cases hpass : ∃ b, Passes s b
  · obtain ⟨b, hp, hleast⟩ := exists_least_passing s hpass
    have he := execSearch_found s b hlegal hp hleast
    refine ⟨_, he, iff_of_true rfl hpass, fun hf => ?_⟩
    obtain ⟨hkey, -, hmin⟩ := eq_searchFound_of_found he hf
    exact ⟨hkey, hmin⟩
  · refine ⟨_, execSearch_exhausted s hlegal (not_exists.1 hpass), iff_of_false Bool.false_ne_true hpass, fun hf => ?_⟩
    exact absurd hf Bool.false_ne_true

/-- Settles O20: after KEXP and DECBUF the body in PBUF is the trial that Found writes, so SCORE and STRIP read what it read. -/
theorem searchIsKexpDecbufScoreStrip : Obligations.SearchIsKexpDecbufScoreStrip := by
  intro s t b hlegal he hf hb
  obtain ⟨hp, ht, -⟩ := eq_searchFound_of_found he hf
  rw [hb] at hp ht
  have ⟨_, _, hfits⟩ := hlegal
  have hbody := readBytes_searchFound_pbuf hlegal b
  exact ⟨_, _, _, _, rfl, execDecbuf_legal _ hlegal, exec_score_of_plausible hfits hbody hp,
    exec_strip_of_body hfits hbody, rfl, ht⟩

end Sys2Proof.Proofs

/-!
Errors and STATUS (60_exceptions.md): the checks a command makes before it does anything, what a host access leaves of the
outcome, the causes of OVR and BERR, and the places of the fields in STATUS.
-/

namespace Sys2Proof.Machine

open Sys2Proof.Safety

section Offsets

/-- Offset 0 alone is CMD (10_state.md R24). -/
theorem eq_of_regAt_eq_cmd {off : Nat} (h : regAt off = .cmd) : off = 0x00 := by
  unfold regAt at h
  split at h <;> simp at h ⊢

/-- STATUS stands at offset 0x04 alone (10_state.md R24). -/
theorem eq_of_regAt_eq_status {off : Nat} (h : regAt off = .status) : off = 0x04 := by
  unfold regAt at h
  split at h <;> simp at h ⊢

/-- PB_DATA stands at offset 0x3C alone (10_state.md R24). -/
theorem eq_of_regAt_eq_pbData {off : Nat} (h : regAt off = .pbData) : off = 0x3C := by
  unfold regAt at h
  split at h <;> simp at h ⊢

/-- The offsets of the two data ports (10_state.md R24). -/
theorem offset_of_port {off : Nat} (h : regAt off = .cbData ∨ regAt off = .pbData) : off = 0x34 ∨ off = 0x3C :=
  h.imp eq_of_regAt_eq_cbData eq_of_regAt_eq_pbData

end Offsets

section EarlyErrors

/-- The error that the checks of a command raise before it does anything, `none` when they pass (60_exceptions.md R192,
R193). -/
def earlyError (i : Instr) (s : State) : ErrorCode :=
  match i with
  | .kexp _ => .none
  | .decb => .none
  | .decbuf => s.bodyError
  | .score => s.lengthError
  | .strip => s.lengthError
  | .search => s.bodyError

/-- The state after a command that its own checks stop: STATUS alone is written, with PLAUSIBLE cleared by SCORE and SEARCH and
FOUND by SEARCH (60_exceptions.md R190, R194). -/
def stopped (i : Instr) (s : State) (code : ErrorCode) : State :=
  { s with status :=
    { failed s.status code with
      plausible := s.status.plausible && !(decide (i = .score) || decide (i = .search))
      found := s.status.found && !decide (i = .search) } }

/-- Among the buffer commands, a LEN that does not fit is found first (60_exceptions.md R193). -/
theorem earlyError_too_large {i : Instr} {s : State} (hi : i ∈ [Instr.decbuf, .score, .strip, .search])
    (h : s.bufBytes < s.len.toNat) : earlyError i s = .captureTooLarge := by
  simp only [List.mem_cons, List.not_mem_nil, or_false] at hi
  rcases hi with rfl | rfl | rfl | rfl
  · exact bodyError_too_large s h
  · exact lengthError_too_large s h
  · exact lengthError_too_large s h
  · exact bodyError_too_large s h

/-- DECBUF and SEARCH then ask for a positive multiple of 8. -/
theorem earlyError_misaligned {i : Instr} {s : State} (hi : i ∈ [Instr.decbuf, .search]) (hfits : s.len.toNat ≤ s.bufBytes)
    (hlen : s.len.toNat = 0 ∨ s.len.toNat % 8 ≠ 0) : earlyError i s = .bodyMisaligned := by
  simp only [List.mem_cons, List.not_mem_nil, or_false] at hi
  rcases hi with rfl | rfl <;> exact bodyError_misaligned s hfits hlen

/-- The check of SCORE and STRIP fails only on a LEN that does not fit. -/
theorem lengthError_cases (s : State) :
    s.len.toNat ≤ s.bufBytes ∧ s.lengthError = .none ∨ s.bufBytes < s.len.toNat ∧ s.lengthError = .captureTooLarge := by
  rcases Nat.lt_or_ge s.bufBytes s.len.toNat with hlarge | hfits
  · exact .inr ⟨hlarge, lengthError_too_large s hlarge⟩
  · exact .inl ⟨hfits, (lengthError_eq_none s).2 hfits⟩

/-- A command whose checks fail raises their error, and writes what R190 says alone. -/
theorem exec_of_earlyError {i : Instr} {s : State} (h : earlyError i s ≠ .none) :
    exec i s = .next (stopped i s (earlyError i s)) := by
  cases i with
  | kexp b => exact absurd rfl h
  | decb => exact absurd rfl h
  | decbuf =>
    rw [exec_decbuf_error rfl h]
    simp [stopped, failed, earlyError]
  | score =>
    rcases lengthError_cases s with ⟨-, hnone⟩ | ⟨hlarge, he⟩
    · exact absurd hnone h
    · rw [earlyError, he]
      refine (execScore_error s hlarge).trans ?_
      simp [stopped, State.complete, Status.completed, failed, State.withPlausible]
  | strip =>
    rcases lengthError_cases s with ⟨-, hnone⟩ | ⟨hlarge, he⟩
    · exact absurd hnone h
    · rw [earlyError, he]
      refine (execStrip_error s hlarge).trans ?_
      simp [stopped, State.complete, Status.completed, failed]
  | search =>
    rw [exec_search_error rfl h]
    simp [stopped, earlyError]

/-- A command whose checks pass succeeds, or is a SEARCH that ends with KEY_NOT_FOUND. -/
theorem errcode_of_earlyError_eq_none {i : Instr} {s t : State} (h : earlyError i s = .none) (he : exec i s = .next t) :
    t.status.errcode = .none ∨ t.status.errcode = .keyNotFound := by
  cases i with
  | kexp b => cases he; exact .inl rfl
  | decb => cases he; exact .inl rfl
  | decbuf => cases (execDecbuf_legal s ((bodyError_eq_none s).1 h)).symm.trans he; exact .inl rfl
  | score => cases (execScore_legal s ((lengthError_eq_none s).1 h)).symm.trans he; exact .inl rfl
  | strip => cases (execStrip_legal s ((lengthError_eq_none s).1 h)).symm.trans he; exact .inl rfl
  | search =>
    rcases execSearch_cases s with ⟨b, -, -, -, hs⟩ | ⟨-, -, hs⟩ | ⟨hbad, -⟩
    · cases hs.symm.trans he; exact .inl rfl
    · cases hs.symm.trans he; exact .inr rfl
    · exact absurd h hbad

/-- The engine step of a latched command whose checks fail reports their error. -/
theorem engineStep_errcode_of_earlyError {i : Instr} {s t : State} {code : ErrorCode} (hd : decode s.latch = .command i)
    (h : earlyError i s = code) (hcode : code ≠ .none) (ht : engineStep s = .next t) : t.status.errcode = code := by
  subst h
  cases ((engineStep_command s i hd).trans (exec_of_earlyError hcode)).symm.trans ht
  rfl

end EarlyErrors

section HostOutcome

/-- A host write that is no acceptance leaves LATCH and all of STATUS but OVR and BERR (60_exceptions.md R196). -/
theorem hostWrite_keeps_outcome (r : Reg) (v : Word) (s : State) (h : s.status.busy = true ∨ r ≠ .cmd) :
    (hostWrite r v s).latch = s.latch ∧
      (hostWrite r v s).status =
        { s.status with ovr := (hostWrite r v s).status.ovr, berr := (hostWrite r v s).status.berr } := by
  cases hb : s.status.busy with
  | true =>
    rw [hostWrite_busy r v s hb, writeBusy_frame]
    exact ⟨rfl, rfl⟩
  | false =>
    have hr : r ≠ .cmd := h.resolve_left (by simp [hb])
    rw [hostWrite_idle r v s hb]
    cases r
    case cmd => exact absurd rfl hr
    case cbData => rw [writeIdle, writeCbData_frame]; exact ⟨rfl, rfl⟩
    case pbData => rw [writeIdle, writePbData_frame]; exact ⟨rfl, rfl⟩
    all_goals exact ⟨rfl, rfl⟩

end HostOutcome

section StickyBits

/-- A bit that goes from `old` to `new` is cleared only by what `clears` says and set only by what `sets` says. -/
structure StickyBit (clears sets : Prop) (old new : Bool) : Prop where
  clear_cause : old = true → new = false → clears
  set_cause : old = false → new = true → sets

/-- A bit that stays needs no cause. -/
theorem StickyBit.of_eq {clears sets : Prop} {old new : Bool} (h : new = old) : StickyBit clears sets old new := by
  subst h
  exact ⟨fun h1 h0 => by simp [h1] at h0, fun h0 h1 => by simp [h0] at h1⟩

/-- A bit that is set by a cause. -/
theorem StickyBit.of_sets {clears sets : Prop} {old : Bool} (h : sets) : StickyBit clears sets old true :=
  ⟨nofun, fun _ _ => h⟩

/-- A bit that is cleared by a cause. -/
theorem StickyBit.of_clears {clears sets : Prop} {old : Bool} (h : clears) : StickyBit clears sets old false :=
  ⟨fun _ _ => h, nofun⟩

/-- Write-1-to-clear (10_state.md R27). -/
theorem StickyBit.of_and_not {sets : Prop} {old b : Bool} : StickyBit (b = true) sets old (old && !b) := by
  cases b
  · exact .of_eq (Bool.and_true old)
  · rw [Bool.not_true, Bool.and_false]; exact .of_clears rfl

/-- A cause may be replaced by one that it implies. -/
theorem StickyBit.imp {clears clears' sets sets' : Prop} {old new : Bool} (h : StickyBit clears sets old new)
    (hc : clears → clears') (hs : sets → sets') : StickyBit clears' sets' old new :=
  ⟨fun h1 h0 => hc (h.clear_cause h1 h0), fun h0 h1 => hs (h.set_cause h0 h1)⟩

/-- OVR at a host write (10_state.md R27, 70_reset_and_hazards.md R223). -/
theorem hostWrite_ovr (r : Reg) (v : Word) (s : State) :
    StickyBit (r = .status ∧ v.getLsbD 5 = true) (s.status.busy = true) s.status.ovr (hostWrite r v s).status.ovr := by
  cases hb : s.status.busy with
  | true =>
    rw [hostWrite_busy r v s hb]
    cases r
    case status => exact StickyBit.of_and_not.imp (fun h => ⟨rfl, h⟩) id
    case outlen | keyByte | count | bufsize | reserved => exact .of_eq rfl
    all_goals exact .of_sets rfl
  | false =>
    rw [hostWrite_idle r v s hb]
    cases r
    case status => exact StickyBit.of_and_not.imp (fun h => ⟨rfl, h⟩) id
    case cbData => rw [writeIdle, writeCbData_frame]; exact .of_eq rfl
    case pbData => rw [writeIdle, writePbData_frame]; exact .of_eq rfl
    all_goals exact .of_eq rfl

/-- A port access leaves BERR inside the buffer and sets it outside (20_memory.md R66, R67). -/
theorem StickyBit.of_portAccess {clears sets : Prop} {old inside : Bool} {s t : State} (hin : s.status.berr = old)
    (hout : t.status.berr = true) (h : sets) : StickyBit clears sets old (if inside then s else t).status.berr := by
  split
  · exact .of_eq hin
  · rw [hout]
    exact .of_sets h

/-- BERR at a host write (10_state.md R27, 20_memory.md R66). -/
theorem hostWrite_berr (r : Reg) (v : Word) (s : State) :
    StickyBit (r = .status ∧ v.getLsbD 6 = true) (s.status.busy = false ∧ (r = .cbData ∨ r = .pbData)) s.status.berr
      (hostWrite r v s).status.berr := by
  cases hb : s.status.busy with
  | true =>
    rw [hostWrite_busy r v s hb]
    cases r
    case status => exact StickyBit.of_and_not.imp (fun h => ⟨rfl, h⟩) id
    all_goals exact .of_eq rfl
  | false =>
    rw [hostWrite_idle r v s hb]
    cases r
    case status => exact StickyBit.of_and_not.imp (fun h => ⟨rfl, h⟩) id
    case cbData => rw [writeIdle, writeCbData]; exact .of_portAccess rfl rfl ⟨rfl, .inl rfl⟩
    case pbData => rw [writeIdle, writePbData]; exact .of_portAccess rfl rfl ⟨rfl, .inr rfl⟩
    all_goals exact .of_eq rfl

/-- BERR at a host read (20_memory.md R67, 70_reset_and_hazards.md R224). -/
theorem hostRead_berr (r : Reg) (s : State) :
    StickyBit False (s.status.busy = false ∧ (r = .cbData ∨ r = .pbData)) s.status.berr (hostRead r s).status.berr := by
  cases hb : s.status.busy with
  | true =>
    rw [hostRead_busy r s hb, readBusy_frame]
    exact .of_eq rfl
  | false =>
    rw [hostRead_idle r s hb]
    cases r
    case cbData => rw [readIdle, readCbData]; exact .of_portAccess rfl rfl ⟨rfl, .inl rfl⟩
    case pbData => rw [readIdle, readPbData]; exact .of_portAccess rfl rfl ⟨rfl, .inr rfl⟩
    all_goals exact .of_eq rfl

/-- No engine step writes OVR or BERR (10_state.md R22). -/
theorem engineStep_keeps_stickyBits {s t : State} (h : engineStep s = .next t) :
    t.status.ovr = s.status.ovr ∧ t.status.berr = s.status.berr := by
  rcases engineStep_cases s with ⟨i, hi⟩ | hi
  · obtain ⟨u, code, hexec, hw⟩ := exec_completes i s
    obtain rfl := Host.Outcome.next.inj (hexec.symm.trans (hi.symm.trans h))
    rw [hw.frame]
    exact ⟨rfl, rfl⟩
  · obtain rfl := Host.Outcome.next.inj (hi.symm.trans h)
    exact ⟨rfl, rfl⟩

/-- A step leaves OVR and BERR, or is a host read or a host write of a register, or is reset, which clears STATUS. -/
theorem step_stickyBits_cases {s t : State} (h : step s = .next t) :
    (t.status.ovr = s.status.ovr ∧ t.status.berr = s.status.berr) ∨
      (∃ off rest, HostReads s off rest ∧ t = hostRead (regAt off) (withAgenda s rest)) ∨
      (∃ off v rest, HostWrites s off v rest ∧ t = hostWrite (regAt off) v (withAgenda s rest)) ∨
      ((∃ rest, s.agenda = .reset :: rest) ∧ t.status = Status.zero) := by
  rcases step_cases s with ⟨-, -, hs⟩ | ⟨-, -, hs⟩ | ⟨off, rest, -, -, hr, hs⟩ | ⟨off, v, rest, -, -, hw, hs⟩ |
    ⟨x, rest, -, -, hs⟩ | ⟨x, rest, -, -, hs⟩ | ⟨rest, ha, hs⟩
  all_goals rw [hs] at h
  · cases h
    exact .inl ⟨rfl, rfl⟩
  · exact .inl (engineStep_keeps_stickyBits (s := withAgenda s s.agenda.tail) h)
  · exact .inr (.inl ⟨off, rest, hr, (Host.Outcome.next.inj h).symm⟩)
  · exact .inr (.inr (.inl ⟨off, v, rest, hw, (Host.Outcome.next.inj h).symm⟩))
  · cases h
  · cases h
    exact .inl ⟨rfl, rfl⟩
  · cases h
    exact .inr (.inr (.inr ⟨⟨rest, ha⟩, rfl⟩))

/-- The host's next access is a write of STATUS with a 1 in bit `i`, or the next move is reset. -/
def ClearsStickyBit (s : State) (i : Nat) : Prop :=
  (∃ v rest, HostWrites s 0x04 v rest ∧ v.getLsbD i = true) ∨ ∃ rest, s.agenda = .reset :: rest

/-- OVR over the whole machine (10_state.md R26, R27). -/
theorem step_ovr {s t : State} (h : step s = .next t) :
    StickyBit (ClearsStickyBit s 5) (s.status.busy = true ∧ ∃ off v rest, HostWrites s off v rest) s.status.ovr
      t.status.ovr := by
  rcases step_stickyBits_cases h with ⟨hovr, -⟩ | ⟨off, rest, -, rfl⟩ | ⟨off, v, rest, hw, rfl⟩ | ⟨hreset, hzero⟩
  · exact .of_eq hovr
  · rw [hostRead_frame]
    exact .of_eq rfl
  · exact (hostWrite_ovr (regAt off) v (withAgenda s rest)).imp
      (fun ⟨hr, hbit⟩ => .inl ⟨v, rest, eq_of_regAt_eq_status hr ▸ hw, hbit⟩)
      fun hbusy => ⟨hbusy, off, v, rest, hw⟩
  · rw [hzero]
    exact .of_clears (.inr hreset)

/-- BERR over the whole machine (10_state.md R26, R27). -/
theorem step_berr {s t : State} (h : step s = .next t) :
    StickyBit (ClearsStickyBit s 6)
      (s.status.busy = false ∧ ∃ off rest, (off = 0x34 ∨ off = 0x3C) ∧ (HostReads s off rest ∨ ∃ v, HostWrites s off v rest))
      s.status.berr t.status.berr := by
  rcases step_stickyBits_cases h with ⟨-, hberr⟩ | ⟨off, rest, hread, rfl⟩ | ⟨off, v, rest, hw, rfl⟩ | ⟨hreset, hzero⟩
  · exact .of_eq hberr
  · exact (hostRead_berr (regAt off) (withAgenda s rest)).imp False.elim
      fun ⟨hidle, hport⟩ => ⟨hidle, off, rest, offset_of_port hport, .inl hread⟩
  · exact (hostWrite_berr (regAt off) v (withAgenda s rest)).imp
      (fun ⟨hr, hbit⟩ => .inl ⟨v, rest, eq_of_regAt_eq_status hr ▸ hw, hbit⟩)
      fun ⟨hidle, hport⟩ => ⟨hidle, off, rest, offset_of_port hport, .inr ⟨v, hw⟩⟩
  · rw [hzero]
    exact .of_clears (.inr hreset)

end StickyBits

section StatusWord

/-- STATUS with its eight low bits peeled off, from BUSY up to the reserved bit 7 (10_state.md R26). -/
theorem Status.word_eq_concat (s : Status) :
    s.word = ((((((((0#20 ++ s.errcode.code).concat false).concat s.berr).concat s.ovr).concat s.found).concat
      s.plausible).concat s.err).concat s.done).concat s.busy := rfl

/-- The bits of STATUS from 8 up are ERRCODE and then zeros (10_state.md R26). -/
theorem Status.getLsbD_word_add_eight (s : Status) (i : Nat) :
    s.word.getLsbD (i + 8) = (0#20 ++ s.errcode.code).getLsbD i := by
  rw [Status.word_eq_concat]
  simp only [BitVec.getLsbD_concat_succ]

/-- Bits 11:8 of STATUS are ERRCODE (10_state.md R26). -/
theorem Status.extractLsb'_word_errcode (s : Status) : s.word.extractLsb' 8 4 = s.errcode.code := by
  apply BitVec.eq_of_getLsbD_eq
  intro i hi
  rw [BitVec.getLsbD_extractLsb', Nat.add_comm, Status.getLsbD_word_add_eight, BitVec.getLsbD_append]
  simp [hi]

/-- Bits 31:12 of STATUS read 0 (10_state.md R26). -/
theorem Status.extractLsb'_word_reserved (s : Status) : s.word.extractLsb' 12 20 = 0 := by
  apply BitVec.eq_of_getLsbD_eq
  intro i hi
  rw [BitVec.getLsbD_extractLsb', show 12 + i = i + 4 + 8 by omega, Status.getLsbD_word_add_eight, BitVec.getLsbD_append]
  simp

end StatusWord

end Sys2Proof.Machine

namespace Sys2Proof.Proofs

open Sys2Proof.Machine Sys2Proof.Safety

/-- Settles O21: each clause names the first check that fails, or the illegal word that is never checked, or the search that
passes all checks. -/
theorem errorsFollowThePriority : Obligations.ErrorsFollowThePriority := by
  intro s hagenda hbusy
  rw [step_nil s hagenda, engineTurn_busy s hbusy]
  obtain ⟨t, ht⟩ : ∃ t, engineStep s = .next t := by
    obtain ⟨u, code, he, -⟩ := engineStep_completes s
    exact ⟨_, he⟩
  refine ⟨t, ht, fun hl => ?_, fun i hd hi hlarge => ?_, fun i hd hi hfits hlen => ?_, fun hd hlegal hnone => ?_,
    fun hlen => ?_⟩
  · cases (engineStep_not_legalWord s hl).symm.trans ht
    rfl
  · exact engineStep_errcode_of_earlyError hd (earlyError_too_large hi hlarge) (by decide) ht
  · exact engineStep_errcode_of_earlyError hd (earlyError_misaligned hi hfits hlen) (by decide) ht
  · have he : engineStep s = .next s.searchExhausted :=
      (engineStep_command s _ hd).trans (execSearch_exhausted s hlegal hnone)
    rw [Host.Outcome.next.inj (ht.symm.trans he)]
    rfl
  · obtain ⟨-, hmax, -⟩ := bufBytes_bounds s.cfg
    rw [hlen, State.bufBytes_eq]
    exact ⟨hmax.trans_lt (by decide), by decide⟩

/-- Settles O22: these two codes come from the early checks alone, and a command that they stop writes STATUS
alone. -/
theorem earlyErrorsArePrecise : Obligations.EarlyErrorsArePrecise := by
  intro i s t he hcode
  by_cases h : earlyError i s = .none
  · rcases errcode_of_earlyError_eq_none h he with hn | hn <;> simp [hn] at hcode
  · cases (exec_of_earlyError h).symm.trans he
    rfl

/-- Settles O43: a read writes no outcome, a write only as an acceptance, and an access outside the window reaches nothing. -/
theorem hostAccessesNeverTouchTheOutcome : Obligations.HostAccessesNeverTouchTheOutcome := by
  intro s s' t rest ha hstep
  rw [step_cons s _ rest ha, runMove] at hstep
  rcases hostStep_cases t (withAgenda s rest) with ⟨off, -, -, -, hs⟩ | ⟨off, v, -, -, rfl, hs⟩ | ⟨-, hs⟩ | ⟨-, hs⟩
  all_goals rw [hs] at hstep
  · obtain rfl := Host.Outcome.next.inj hstep
    rw [hostRead_frame]
    exact ⟨rfl, rfl, rfl, rfl, rfl, fun _ => ⟨rfl, rfl, rfl, rfl, rfl⟩⟩
  · obtain rfl := Host.Outcome.next.inj hstep
    have hf := hostWrite_frame (regAt off) v (withAgenda s rest)
    refine ⟨by rw [hf]; rfl, by rw [hf]; rfl, by rw [hf]; rfl, by rw [hf]; rfl, by rw [hf]; rfl, fun hacc => ?_⟩
    obtain ⟨hlatch, hstatus⟩ := hostWrite_keeps_outcome (regAt off) v (withAgenda s rest) <|
      hacc.imp id fun hno hr => hno v (by rw [HostWrites, ha, eq_of_regAt_eq_cmd hr]; rfl)
    rw [hstatus]
    exact ⟨rfl, rfl, rfl, rfl, hlatch⟩
  · cases hstep
  · cases hstep
    exact ⟨rfl, rfl, rfl, rfl, rfl, fun _ => ⟨rfl, rfl, rfl, rfl, rfl⟩⟩

/-- Settles O44: the causes of a change of either bit are those of `step_ovr` and `step_berr`. -/
theorem stickyBitsStayUntilCleared : Obligations.StickyBitsStayUntilCleared := by
  intro s t hstep
  obtain ⟨hovrCleared, hovrSet⟩ := step_ovr hstep
  obtain ⟨hberrCleared, hberrSet⟩ := step_berr hstep
  exact ⟨hovrCleared, hberrCleared, hovrSet, hberrSet⟩

/-- Settles O7: the bits are peeled off from below, one a field, and ERRCODE lies above the eighth. -/
theorem statusWordLayout : Obligations.StatusWordLayout := by
  intro s
  refine ⟨?_, ?_, ?_, ?_, ?_, ?_, ?_, ?_, s.extractLsb'_word_errcode, s.extractLsb'_word_reserved, rfl, rfl, rfl, rfl, rfl⟩
  all_goals
    rw [Status.word_eq_concat]
    simp only [BitVec.getLsbD_concat_succ, BitVec.getLsbD_concat_zero]

/-- Settles O48: with an empty agenda the turn is the engine's, and an idle engine does nothing. -/
theorem idleMachineKeepsItsState : Obligations.IdleMachineKeepsItsState :=
  fun s hidle hagenda => (step_nil s hagenda).trans (engineTurn_idle s hidle)

end Sys2Proof.Proofs

/-!
Reset, verdicts and accesses while BUSY (70_reset_and_hazards.md): what a busy machine makes of a host access, which steps write
PLAUSIBLE and FOUND, and what lasts from an acceptance on.
-/

namespace Sys2Proof.Machine

open Sys2Proof.Safety

section BusyAccesses

/-- The registers whose writes are discarded while BUSY (70_reset_and_hazards.md R223). -/
theorem writeBusy_discarded (r : Reg) (v : Word) (s : State)
    (h : r ∈ [.cmd, .len, .key0, .key1, .key2, .key3, .blk0, .blk1, .cbAddr, .cbData, .pbAddr, .pbData]) :
    writeBusy r v s = s.overrun := by
  cases r
  case status | outlen | keyByte | count | bufsize | reserved => simp at h
  all_goals rfl

/-- While BUSY a read answers some word and has no other effect but the draw for it (70_reset_and_hazards.md R224). -/
theorem readBusy_answers (r : Reg) (s : State) :
    ∃ v d, readBusy r s = { s with answers := .data v :: s.answers, draws := d } := by
  cases r <;> exact ⟨_, _, rfl⟩

/-- STATUS reads its word, busy or not (10_state.md R26). -/
theorem hostRead_status (s : State) : hostRead .status s = s.answer (.data s.status.word) := hostRead_of_both rfl rfl

end BusyAccesses

section ResetValues

/-- An address register whose stored bits are 0 is 0 (10_state.md R34). -/
theorem addrOfIndex_zero : addrOfIndex 0 = 0 := by decide

/-- BUFSIZE reads BUF_BYTES, which fits in a word (10_state.md R38). -/
theorem State.bufsize_toNat (s : State) : s.bufsize.toNat = s.bufBytes := by
  obtain ⟨-, hle, -⟩ := bufBytes_bounds s.cfg
  rw [State.bufsize, BitVec.toNat_ofNat, State.bufBytes_eq, Nat.mod_eq_of_lt (by omega)]

end ResetValues

section Verdicts

/-- The engine step of a latched word that decodes to no command (30_encoding.md R94). -/
theorem engineStep_illegal {s : State} {why : Illegal} (h : decode s.latch = .illegal why) :
    engineStep s = .next (s.complete .illegalCommand) := by
  simp [engineStep, h]

/-- An engine step sets DONE, and writes a verdict only for the commands that give one (10_state.md R22, R26). -/
theorem engineStep_verdicts {s t : State} (h : engineStep s = .next t) :
    t.status.done = true ∧
      (t.status.plausible ≠ s.status.plausible → decode s.latch = .command .score ∨ decode s.latch = .command .search) ∧
      (t.status.found ≠ s.status.found → decode s.latch = .command .search) := by
  cases hd : decode s.latch with
  | command i =>
    obtain ⟨u, code, hexec, hw⟩ := exec_completes i s
    obtain rfl := Host.Outcome.next.inj (hexec.symm.trans ((engineStep_command s i hd).symm.trans h))
    exact ⟨rfl, fun hp => (hw.plausible hp).imp (congrArg _) (congrArg _), fun hf => congrArg _ (hw.found hf)⟩
  | illegal why =>
    obtain rfl := Host.Outcome.next.inj ((engineStep_illegal hd).symm.trans h)
    exact ⟨rfl, fun hp => absurd rfl hp, fun hf => absurd rfl hf⟩

/-- A step leaves PLAUSIBLE and FOUND, or is the engine's on a busy machine, or is reset. -/
theorem step_verdicts_cases {s t : State} (h : step s = .next t) :
    (t.status.plausible = s.status.plausible ∧ t.status.found = s.status.found) ∨
      (s.status.busy = true ∧ engineStep (withAgenda s s.agenda.tail) = .next t) ∨ ∃ rest, s.agenda = .reset :: rest := by
  rcases step_cases s with ⟨-, -, hs⟩ | ⟨-, hbusy, hs⟩ | ⟨off, rest, -, -, -, hs⟩ | ⟨off, v, rest, -, -, -, hs⟩ |
    ⟨x, rest, -, -, hs⟩ | ⟨x, rest, -, -, hs⟩ | ⟨rest, ha, -⟩
  case inr.inr.inr.inr.inr.inr => exact .inr (.inr ⟨rest, ha⟩)
  all_goals rw [hs] at h
  · cases h
    exact .inl ⟨rfl, rfl⟩
  · exact .inr (.inl ⟨hbusy, h⟩)
  · cases h
    rw [hostRead_frame]
    exact .inl ⟨rfl, rfl⟩
  · cases h
    rw [hostWrite_frame]
    exact .inl ⟨rfl, rfl⟩
  · cases h
  · cases h
    exact .inl ⟨rfl, rfl⟩

end Verdicts

section AfterAcceptance

/-- What every step keeps holds at the end of a run. -/
theorem runs_keeps {P : State → Prop} (hstep : ∀ s t, P s → step s = .next t → P t) {k : Nat} {s t : State} (hs : P s)
    (h : runs k s = .next t) : P t := by
  induction k generalizing s with
  | zero => exact Host.Outcome.next.inj ((runs_zero s).symm.trans h) ▸ hs
  | succ k ih =>
    obtain ⟨u, hu, hrun⟩ := runs_succ_next k s t h
    exact ih (hstep s u hs hu) hrun

/-- A command was accepted and is in flight or done, and no reset is to come (70_reset_and_hazards.md R226). -/
structure Accepted (s : State) : Prop where
  no_reset : Move.reset ∉ s.agenda
  busy_or_done : s.status.busy = true ∨ s.status.done = true

/-- A host write ends no command and clears DONE only by accepting the next one (60_exceptions.md R196). -/
theorem hostWrite_keeps_busy_or_done (r : Reg) (v : Word) (s : State) (h : s.status.busy = true ∨ s.status.done = true) :
    (hostWrite r v s).status.busy = true ∨ (hostWrite r v s).status.done = true := by
  by_cases hacc : s.status.busy = true ∨ r ≠ .cmd
  · obtain ⟨-, hstatus⟩ := hostWrite_keeps_outcome r v s hacc
    rw [hstatus]
    exact h
  · obtain ⟨hidle, hr⟩ := not_or.1 hacc
    rw [hostWrite_idle r v s (Bool.eq_false_of_not_eq_true hidle), not_not.1 hr]
    exact .inl rfl

/-- Once a command is accepted, every step leaves it in flight or done. -/
theorem step_keeps_accepted (s t : State) (h : Accepted s) (hstep : step s = .next t) : Accepted t := by
  obtain ⟨hreset, hstatus⟩ := h
  obtain ⟨-, htail⟩ := step_keeps_cfg_takes_move s t hstep
  refine ⟨fun hm => hreset (List.mem_of_mem_tail (htail ▸ hm)), ?_⟩
  rcases step_cases s with ⟨-, -, hs⟩ | ⟨-, -, hs⟩ | ⟨off, rest, -, -, -, hs⟩ | ⟨off, v, rest, -, -, -, hs⟩ |
    ⟨x, rest, -, -, hs⟩ | ⟨x, rest, -, -, hs⟩ | ⟨rest, ha, -⟩
  case inr.inr.inr.inr.inr.inr => exact absurd (ha ▸ List.mem_cons_self ..) hreset
  all_goals rw [hs] at hstep
  · cases hstep
    exact hstatus
  · exact .inr (engineStep_verdicts hstep).1
  · cases hstep
    rw [hostRead_frame]
    exact hstatus
  · cases hstep
    exact hostWrite_keeps_busy_or_done _ v (withAgenda s rest) hstatus
  · cases hstep
  · cases hstep
    exact hstatus

end AfterAcceptance

end Sys2Proof.Machine

namespace Sys2Proof.Proofs

open Sys2Proof.Machine Sys2Proof.Safety

/-- Settles O45: a step that is neither the engine's nor reset leaves both verdicts, and an engine step writes them only for the
latched SCORE or SEARCH. -/
theorem verdictsChangeOnlyByScoreAndSearch : Obligations.VerdictsChangeOnlyByScoreAndSearch := by
  intro s t hstep
  rcases step_verdicts_cases hstep with ⟨hplausible, hfound⟩ | ⟨hbusy, he⟩ | hreset
  · exact ⟨fun hp => absurd hplausible hp, fun hf => absurd hfound hf⟩
  · obtain ⟨hdone, hp, hf⟩ := engineStep_verdicts he
    exact ⟨fun hne => .inl ⟨hbusy, hdone, hp hne⟩, fun hne => .inl ⟨hbusy, hdone, hf hne⟩⟩
  · exact ⟨fun _ => .inr hreset, fun _ => .inr hreset⟩

/-- Settles O50: acceptance sets BUSY, every later step of a run without reset leaves BUSY or DONE set, and the read answers
STATUS as it stands. -/
theorem busyZeroAfterAcceptanceMeansDone : Obligations.BusyZeroAfterAcceptanceMeansDone := by
  intro s w rest hidle hw hreset k t rest' hrun hread
  have haccepted : Accepted (((withAgenda s rest).accept w).answer .done) := ⟨hreset, .inl rfl⟩
  rw [runs_succ k s _ (step_hostWrites_idle s 0x00 w rest hw (by decide) rfl hidle)] at hrun
  obtain ⟨-, hstatus⟩ := runs_keeps step_keeps_accepted haccepted hrun
  obtain ⟨hbusy, hdone, -⟩ := statusWordLayout t.status
  refine ⟨t.status.word, ?_, fun h0 => ?_⟩
  · rw [step_hostReads t 0x04 rest' hread (by decide) rfl]
    exact congrArg _ (hostRead_status _)
  · rw [hbusy] at h0
    exact hdone.trans (hstatus.resolve_left (by simp [h0]))

/-- Settles O40: the write is discarded, goes to STATUS, or is one that BUSY does not influence. -/
theorem writesWhileBusyAreDiscarded : Obligations.WritesWhileBusyAreDiscarded := by
  obtain ⟨-, hignored, -⟩ := readOnlyAndReservedIgnoreWrites
  intro s v rest off hbusy h
  refine ⟨fun hoff => ?_, fun hoff => ?_, fun hoff => hignored s v rest off hoff h⟩
  · have hreg : off < 256 ∧ off % 4 = 0 ∧
        regAt off ∈ [Reg.cmd, .len, .key0, .key1, .key2, .key3, .blk0, .blk1, .cbAddr, .cbData, .pbAddr, .pbData] := by
      clear h
      revert off
      decide
    obtain ⟨hlt, h4, hr⟩ := hreg
    rw [step_hostWrites_busy s off v rest h hlt h4 hbusy, writeBusy_discarded _ v _ hr]
    rfl
  · subst hoff
    rw [step_hostWrites s 0x04 v rest h (by decide) rfl]
    exact congrArg _ (hostWrite_status v _)

/-- Settles O41: BUSY does not influence the reads of STATUS, BUFSIZE, CMD and the reserved offsets, and no read of a busy machine
does more than answer. -/
theorem readsWhileBusyHaveNoSideEffect : Obligations.ReadsWhileBusyHaveNoSideEffect := by
  intro s rest off hbusy h4 hlt h
  have hstep := step_hostReads s off rest h hlt h4
  refine ⟨?_, ?_, ?_, ?_⟩
  · rintro rfl
    exact hstep.trans (congrArg _ (hostRead_status _))
  · rintro rfl
    exact hstep.trans (congrArg _ (hostRead_bufsize _))
  · rintro (rfl | hge)
    · exact hstep.trans (congrArg _ (hostRead_cmd _))
    · rw [hstep, regAt_reserved off hge]
      exact congrArg _ (hostRead_reserved _)
  · obtain ⟨v, d, hanswer⟩ := readBusy_answers (regAt off) (withAgenda s rest)
    exact ⟨v, d, (step_hostReads_busy s off rest h hlt h4 hbusy).trans (congrArg _ hanswer)⟩

/-- Settles O46: each entry of the table is the value `State.resetAt` gives, and BUFSIZE is read from the parameters. -/
theorem resetStateIsTheTable : Obligations.ResetStateIsTheTable :=
  ⟨by decide, rfl, rfl, rfl, rfl, rfl, rfl, addrOfIndex_zero, addrOfIndex_zero, State.reset.bufsize_toNat, rfl, rfl, rfl, rfl,
    rfl⟩

/-- Settles O47: a reset that comes next is made from every state, and what it makes depends on the state in the parameters, the
draws, the moves to come and the answers alone. -/
theorem resetAbandonsEverything : Obligations.ResetAbandonsEverything := by
  intro s rest h
  exact ⟨_, step_cons s .reset rest h, rfl, rfl, rfl, rfl, rfl, rfl, rfl, addrOfIndex_zero, addrOfIndex_zero, rfl, rfl, rfl,
    rfl, rfl⟩

end Sys2Proof.Proofs

/-!
The decoder's refusals (30_encoding.md R93, R94): the reason names the first check of R93 that the fields of the word fail.
-/

namespace Sys2Proof.Machine

open Sys2Proof.Safety

section Refusals

/-- The check of OP is the list of 30_encoding.md R92. -/
theorem opAssigned_iff (f : CommandFields) :
    f.opAssigned = true ↔
      f.op = 0x01 ∨ f.op = 0x02 ∨ f.op = 0x03 ∨ f.op = 0x04 ∨ f.op = 0x05 ∨ f.op = 0x06 :=
  decide_eq_true_iff.trans (assigned_opcode_iff f.op)

/-- RSV is checked first. -/
theorem decodeFields_illegal_reservedBits {f : CommandFields} (hrsv : f.rsvZero = false) :
    decodeFields f = .illegal .reservedBits :=
  if_pos (of_decide_eq_false hrsv)

/-- With RSV zero, fields are refused by their opcode when 30_encoding.md R92 does not assign it. -/
theorem decodeFields_illegal_opcode {f : CommandFields} (hrsv : f.rsvZero = true) (hop : f.opAssigned = false) :
    decodeFields f = .illegal .opcode := by
  have hrsv0 : f.rsv = 0 := of_decide_eq_true hrsv
  have hunassigned := mt (opAssigned_iff f).2 (Bool.eq_false_iff.1 hop)
  simp only [not_or] at hunassigned
  simp only [decodeFields, hrsv0, hunassigned, ne_eq, not_true_eq_false, if_false]

/-- With RSV zero and an assigned opcode, fields are refused by IMM8 when it is not zero and the opcode is not KEXP's. -/
theorem decodeFields_illegal_immediate {f : CommandFields} (hrsv : f.rsvZero = true) (hop : f.opAssigned = true)
    (himm : f.immAllowed = false) : decodeFields f = .illegal .immediate := by
  obtain ⟨hkexp, himm8⟩ := not_or.1 (of_decide_eq_false himm)
  rw [opAssigned_iff] at hop
  obtain ⟨op, imm8, rsv⟩ := f
  obtain rfl : rsv = 0 := of_decide_eq_true hrsv
  rcases hop with rfl | rfl | rfl | rfl | rfl | rfl
  · exact absurd rfl hkexp
  all_goals exact if_neg himm8

end Refusals

end Sys2Proof.Machine

namespace Sys2Proof.Proofs

open Sys2Proof.Machine Sys2Proof.Safety

/-- Settles O1: each legal word is the one `encode` gives its command, and each illegal word fails the check its reason names. -/
theorem specWordsDecodeToTheirCommands : Obligations.SpecWordsDecodeToTheirCommands :=
  ⟨decode_encode (.kexp 0x41), decode_encode (.kexp 0xFF), decode_encode (.kexp 0x00), decode_encode .decb,
    decode_encode .decbuf, decode_encode .score, decode_encode .strip, decode_encode .search,
    decodeFields_illegal_opcode rfl rfl, decodeFields_illegal_opcode rfl rfl,
    decodeFields_illegal_immediate rfl rfl rfl, decodeFields_illegal_immediate rfl rfl rfl,
    decodeFields_illegal_reservedBits rfl, decodeFields_illegal_reservedBits rfl, decodeFields_illegal_reservedBits rfl⟩

end Sys2Proof.Proofs
